-- ==== Sys2Proof/Word.lean ====
section
/-! DEFINITION. The word types of LS8: bytes (registers, memory cells, immediates), the 9-bit values of the
program counter and of the error record, and register indices. -/

namespace Sys2Proof

/-- An unsigned 8-bit value: a register, a memory cell, an immediate or an operand byte (spec/00_scope.md R6, R7). -/
abbrev Byte := BitVec 8

/-- A 9-bit value: the program counter and the `info` of an error record (spec/10_state.md R26, R34). -/
abbrev Word9 := BitVec 9

/-- A checked register index, 0 to 7 (spec/10_state.md R20). -/
abbrev RegIndex := Fin 8

end Sys2Proof
end

