-- ==== Sys2Proof/Config.lean ====
section
/-! DEFINITION. What an implementation of LS8 fixes (spec/00_scope.md R6). The spec leaves no value of an
instruction open, so there is no free value here. -/

namespace Sys2Proof

/-- `MEM_SIZE`: 256 cells, addresses 0x00 to 0xFF (spec/00_scope.md R6; spec/20_memory.md R50). -/
abbrev Config.memSize : Nat := 256

/-- `SP_INDEX`: register 7 is the stack pointer (spec/10_state.md R21, R22). -/
abbrev Config.spIndex : RegIndex := 7

/-- `SP_RESET`: the stack pointer's reset value (spec/10_state.md R24). -/
abbrev Config.spReset : Byte := 0xF4#8

/-- `REG_RESET`: reset value of `x[0]` to `x[6]`. PRESUMED, unsafe: the spec takes it from general knowledge of the
public LS8 design (D16); log entry 2. -/
abbrev Config.regReset : Byte := 0x00#8

/-- `MEM_FILL`: what a cell reads as that no image covers and nothing has written. PRESUMED, unsafe: the spec takes it
from general knowledge of the original emulator (D17); log entry 3. -/
abbrev Config.memFill : Byte := 0x00#8

/-- `START_PC`: the program counter in state Ready (spec/10_state.md R29); `load` takes another one as an argument
(spec/70_reset_and_hazards.md R232; log entry 17). -/
abbrev Config.startPc : Byte := 0x00#8

end Sys2Proof
end

