-- ==== Sys2Proof/Machine/State.lean ====
section
/-! DEFINITION. The complete state of one LS8 engine (spec/10_state.md, head paragraph), the reasons a step of the
model can stop, and the state after reset. -/

namespace Sys2Proof.Machine

/-- `STATE` (spec/10_state.md R33). -/
inductive Status where
  /-- "loaded, PC=0, not started" -/
  | ready
  /-- The engine executes instructions. -/
  | running
  /-- "terminal — no instruction is fetched again" -/
  | halted
  deriving DecidableEq, Repr

/-- The four kinds of fatal error (spec/60_exceptions.md R200). -/
inductive ErrorKind where
  /-- The byte at `pc` is not one of the 22 opcodes. -/
  | illegalInstruction
  /-- DIV or MOD with a zero divisor. -/
  | divisionByZero
  /-- The stack pointer would leave 0x00 to 0xFF. -/
  | stackFault
  /-- The program counter, an operand address or a register index is out of range. -/
  | outOfBounds
  deriving DecidableEq, Repr

/-- One record of `FAULT`: `(kind, pc, info)` (spec/10_state.md R34; spec/60_exceptions.md R203). -/
structure FaultRecord where
  kind : ErrorKind
  pc : Word9
  info : Word9
  deriving DecidableEq, Repr

/-- The flag register: Equal, Greater, Less (spec/10_state.md R30). -/
structure Flags where
  e : Bool
  g : Bool
  l : Bool
  deriving DecidableEq, Repr

/-- Memory as data: the cells that do not hold `Config.memFill`, addresses strictly rising
(spec/10_state.md R35; spec/20_memory.md R50). -/
abbrev Memory := List Host.Cell

/-- The whole state of one engine instance (spec/10_state.md R20 to R36). There is no hidden state. -/
structure State where
  /-- `x[0]` to `x[7]`; `x[7]` is the stack pointer (R20, R21, R22). -/
  regs : Vector Byte 8
  /-- The program counter, legal values 0 to 256 (R25, R26). -/
  pc : Word9
  /-- `E`, `G`, `L` (R30). -/
  flags : Flags
  /-- `RUNNING` (R33). -/
  running : Bool
  /-- `STATE` (R33). -/
  status : Status
  /-- `FAULT`: none, or the record of the one fatal error (R34). -/
  fault : Option FaultRecord
  /-- `MEM[0..255]` (R35). -/
  mem : Memory
  /-- `OUT`: the values emitted by PRN, oldest first (R34). -/
  out : List Byte
  deriving DecidableEq, Repr

/-- The reasons a step of the MODEL can stop with a fault: there are none, so no one raises one. The four fatal errors
of the hardware are not here: their entry is described by the spec (spec/60_exceptions.md R204), so raising one is a
next state, Halted, with the record in `State.fault`. DESIGN CHOICE, safe: log entry 7. -/
inductive Fault where
  deriving DecidableEq, Repr

/-- The reasons a step of the MODEL can be refused. -/
inductive Refusal where
  /-- An instruction without a meaning in the model. Raised by an arm of `exec` alone, and by none of them now: all 22
  instructions have their meaning. Safe: a refusal proves nothing about the hardware. -/
  | notModelled (mnemonic : String)
  deriving DecidableEq, Repr

/-- What a step of the model answers. -/
abbrev Result := Host.Outcome State Fault Refusal

/-- The machine right after reset, with no image loaded (spec/70_reset_and_hazards.md R230, R231): state Ready, the
program counter at START_PC, the stack pointer at 0xF4, no flag set, no error, no output. PRESUMED, unsafe: `x[0]` to
`x[6]` and the memory cells are 0x00 (D16, D17; log entries 2 and 3). -/
def State.reset : State where
  regs := #v[Config.regReset, Config.regReset, Config.regReset, Config.regReset,
             Config.regReset, Config.regReset, Config.regReset, Config.spReset]
  pc := Config.startPc.setWidth 9
  flags := ⟨false, false, false⟩
  running := false
  status := .ready
  fault := none
  mem := []
  out := []

end Sys2Proof.Machine
end

