-- ==== Sys2Proof/Machine/Ops.lean ====
section
/-! DEFINITION. The named operations over memory, registers, the program counter and the status registers, and the
entry into a fatal error: every instruction's meaning is written over these. -/

namespace Sys2Proof.Machine

/-! ### Memory -/

/-- The byte at an address; an unlisted cell reads as `Config.memFill` (spec/20_memory.md R62; log entry 3). -/
def Memory.read : Memory → Nat → Byte
  | [], _ => Config.memFill
  | (a, v) :: rest, addr => if a = addr then v else Memory.read rest addr

/-- A memory without any cell of an address listed. -/
def Memory.erase (m : Memory) (addr : Nat) : Memory := m.filter fun cell => cell.1 != addr

/-- A memory with one more cell listed, in front of the first larger address. -/
def Memory.insert : Memory → Nat → Byte → Memory
  | [], addr, v => [(addr, v)]
  | (a, w) :: rest, addr, v =>
    if addr < a then (addr, v) :: (a, w) :: rest else (a, w) :: Memory.insert rest addr v

/-- Write one byte and keep the canonical form; every other cell keeps its byte (spec/20_memory.md R57). Writing what
an unlisted cell reads as leaves the cell unlisted. -/
def Memory.write (m : Memory) (addr : Nat) (v : Byte) : Memory :=
  if v = Config.memFill then Memory.erase m addr else Memory.insert (Memory.erase m addr) addr v

/-- The canonical form from a least address on: addresses strictly rise and are below 256, and no listed cell holds
what an unlisted one reads as. -/
def Memory.wfFrom : Nat → Memory → Bool
  | _, [] => true
  | lo, (a, v) :: rest =>
    decide (lo ≤ a) && decide (a < Config.memSize) && decide (v ≠ Config.memFill) && Memory.wfFrom (a + 1) rest

/-- The canonical form of a memory. -/
def Memory.wf (m : Memory) : Bool := Memory.wfFrom 0 m

/-- A memory that holds the bytes of a list from an address upward and fill everywhere else. -/
def Memory.ofBytes : Nat → List Byte → Memory
  | _, [] => []
  | addr, v :: rest => Memory.write (Memory.ofBytes (addr + 1) rest) addr v

/-- `MemRead(addr, 1)` (spec/00_scope.md R9): the address is 8 bits wide, so it always exists. -/
def State.memRead (s : State) (addr : Byte) : Byte := Memory.read s.mem addr.toNat

/-- `MemWrite(addr, 1, v)` (spec/00_scope.md R9; spec/20_memory.md R57). -/
def State.memWrite (s : State) (addr : Byte) (v : Byte) : State :=
  { s with mem := Memory.write s.mem addr.toNat v }

/-! ### Registers, flags, output -/

/-- `x[i]` (spec/00_scope.md R9; spec/10_state.md R20). -/
def State.readReg (s : State) (i : RegIndex) : Byte := s.regs[i.val]

/-- `x[i] <- v` (spec/00_scope.md R9; spec/10_state.md R20). -/
def State.writeReg (s : State) (i : RegIndex) (v : Byte) : State :=
  { s with regs := s.regs.set i.val v }

/-- The stack pointer, `x[7]` (spec/10_state.md R22). -/
def State.sp (s : State) : Byte := s.readReg Config.spIndex

/-- Write the stack pointer, `x[7]` (spec/10_state.md R22). -/
def State.setSp (s : State) (v : Byte) : State := s.writeReg Config.spIndex v

/-- Write all three flags (spec/41_alu.md R126). -/
def State.setFlags (s : State) (f : Flags) : State := { s with flags := f }

/-- `Output(v)`: append to `OUT` (spec/00_scope.md R9; spec/44_ldi_prn_hlt.md R182). -/
def State.output (s : State) (v : Byte) : State := { s with out := s.out ++ [v] }

/-! ### The program counter -/

/-- `zext_9(v)` (spec/00_scope.md R9). -/
def zext9 (v : Byte) : Word9 := v.setWidth 9

/-- `pc <- t`. -/
def State.setPc (s : State) (t : Word9) : State := { s with pc := t }

/-- `pc <- pc + n`: the fixed-length advance of an instruction of `n` bytes (spec/40_engine_cycle.md R106). In every
state a run reaches the sum is at most 256 (log entry 6). -/
def State.advance (s : State) (n : Nat) : State := s.setPc (s.pc + BitVec.ofNat 9 n)

/-- The address `pc + k`, not reduced (spec/40_engine_cycle.md R103). -/
def State.pcPlus (s : State) (k : Nat) : Nat := s.pc.toNat + k

/-! ### Starting, stopping, and the entry into a fatal error -/

/-- The start transition: Ready becomes Running at the first step (spec/40_engine_cycle.md R100, R110). -/
def State.start (s : State) : State :=
  match s.status with
  | .ready => { s with status := .running, running := true }
  | .running => s
  | .halted => s

/-- `RUNNING <- 0; STATE <- Halted` (spec/44_ldi_prn_hlt.md R183). -/
def State.halt (s : State) : State := { s with running := false, status := .halted }

/-- The state a fatal error leaves: `FAULT` gets the kind, the current `pc` and `info`, the engine is Halted, and
nothing else changes (spec/60_exceptions.md R204, R205). -/
def State.raised (s : State) (kind : ErrorKind) (info : Word9) : State :=
  { s.halt with fault := some ⟨kind, s.pc, info⟩ }

/-- `raise Kind(info)`: the one entry into a fatal error; it ends the step (spec/60_exceptions.md R204). There is no
return from it (R206). -/
def raise (kind : ErrorKind) (info : Word9) (s : State) : Result := .next (s.raised kind info)

/-- The numeric code of an error kind (spec/60_exceptions.md R200; D28, log entry 21). -/
def ErrorKind.code : ErrorKind → Nat
  | .illegalInstruction => 1
  | .divisionByZero => 2
  | .stackFault => 3
  | .outOfBounds => 4

end Sys2Proof.Machine
end

