-- ==== Sys2Proof/Machine/Flags.lean ====
section
/-! DEFINITION. The flag computation of CMP, the condition of the conditional jumps, and the packed view of the
flags. -/

namespace Sys2Proof.Machine

/-- The flags of comparing two unsigned values: all cleared, then exactly one set (spec/41_alu.md R126). -/
def compareFlags (va vb : Byte) : Flags :=
  if va = vb then ⟨true, false, false⟩
  else if va.toNat > vb.toNat then ⟨false, true, false⟩
  else ⟨false, false, true⟩

/-- The condition of JEQ: the Equal flag alone (spec/43_control_flow.md R170, R172). -/
def jumpsIfEqual (f : Flags) : Bool := f.e

/-- The condition of JNE: the Equal flag is clear (spec/43_control_flow.md R170, R173). -/
def jumpsIfNotEqual (f : Flags) : Bool := !f.e

/-- The packed flag byte `00000LGE` of the read accessor (spec/10_state.md R32; D20, log entry 20). -/
def Flags.packed (f : Flags) : Byte :=
  BitVec.ofNat 8 (4 * f.l.toNat + 2 * f.g.toNat + f.e.toNat)

end Sys2Proof.Machine
end

