-- ==== Sys2Proof/Machine/Operands.lean ====
section
/-! DEFINITION. The operand forms: the register-index check of one and of two operand bytes, and the
stack-pointer sequencer with its range checks. -/

namespace Sys2Proof.Machine

/-- The register an operand byte names: the whole byte, not masked (spec/30_encoding.md R73). -/
def regOf (v : Byte) : Option RegIndex :=
  if h : v.toNat < 8 then some ⟨v.toNat, h⟩ else none

/-- `ra <- reg(v)` and go on; a byte above 7 raises OutOfBounds with that byte (spec/40_engine_cycle.md R104; D7,
log entry 9). -/
def withReg (v : Byte) (s : State) (body : RegIndex → Result) : Result :=
  match regOf v with
  | some r => body r
  | none => raise .outOfBounds (zext9 v) s

/-- `ra <- reg(a); rb <- reg(b)`: `a` is checked before `b` (spec/40_engine_cycle.md R104). -/
def withRegs (a b : Byte) (s : State) (body : RegIndex → RegIndex → Result) : Result :=
  withReg a s fun ra => withReg b s fun rb => body ra rb

/-- Move the stack pointer down by one for a push and go on; at 0x00 raise StackFault before anything is written
(spec/42_stack_call.md R150; D11, log entry 12). -/
def withPushSlot (s : State) (body : State → Result) : Result :=
  if s.sp = 0x00#8 then raise .stackFault (zext9 s.sp) s
  else body (s.setSp (s.sp - 1#8))

/-- Read the top of the stack for a pop and go on; at 0xFF raise StackFault before anything is written
(spec/42_stack_call.md R150; D11, log entry 12). -/
def withPopped (s : State) (body : Byte → Result) : Result :=
  if s.sp = 0xFF#8 then raise .stackFault (zext9 s.sp) s
  else body (s.memRead s.sp)

end Sys2Proof.Machine
end

