-- ==== Sys2Proof/Machine/Alu.lean ====
section
/-! DEFINITION. The ALU as a block and the twelve ALU instructions (spec/41_alu.md). -/

namespace Sys2Proof.Machine

/-- The operation tag of the ALU (spec/41_alu.md R120, R135). -/
inductive AluOp where
  | add | sub | mul | div | mod | cmp | and | or | xor | not | shl | shr
  deriving DecidableEq, Repr

/-- What the ALU answers (spec/41_alu.md R120). -/
inductive AluOut where
  /-- An 8-bit result for the first register. -/
  | result (v : Byte)
  /-- A flag triple, CMP only. -/
  | flags (f : Flags)
  /-- DIV or MOD with `vb = 0`. -/
  | divisionByZero
  deriving DecidableEq, Repr

/-- An exact natural number taken modulo 256 (spec/41_alu.md R133). -/
def wrap8 (n : Nat) : Byte := BitVec.ofNat 8 n

/-- `alu(tag, va, vb)`: each result is computed exactly over the integers and then taken modulo 256
(spec/41_alu.md R120, R133, R135). NOT ignores `vb`. A shift amount of 8 or more gives 0 (D13, log entry 15). -/
def alu (op : AluOp) (va vb : Byte) : AluOut :=
  match op with
  | .add => .result (wrap8 (va.toNat + vb.toNat))
  | .sub => .result (BitVec.ofInt 8 ((va.toNat : Int) - (vb.toNat : Int)))
  | .mul => .result (wrap8 (va.toNat * vb.toNat))
  | .div => if vb = 0#8 then .divisionByZero else .result (wrap8 (va.toNat / vb.toNat))
  | .mod =>
    if vb = 0#8 then .divisionByZero
    else .result (wrap8 (va.toNat - vb.toNat * (va.toNat / vb.toNat)))
  | .cmp => .flags (compareFlags va vb)
  | .and => .result (va &&& vb)
  | .or => .result (va ||| vb)
  | .xor => .result (va ^^^ vb)
  | .not => .result (wrap8 (255 - va.toNat))
  | .shl => .result (wrap8 (va.toNat * 2 ^ vb.toNat))
  | .shr => .result (wrap8 (va.toNat / 2 ^ vb.toNat))

/-- Put the ALU's answer into the state and advance past `len` bytes: a result goes to the first register, flags to
the flag register, and a division by zero is raised with the divisor's register index (spec/41_alu.md R120, R124;
spec/60_exceptions.md R203). -/
def aluWriteBack (ra rb : RegIndex) (len : Nat) (s : State) : AluOut → Result
  | .result v => .next ((s.writeReg ra v).advance len)
  | .flags f => .next ((s.setFlags f).advance len)
  | .divisionByZero => raise .divisionByZero (BitVec.ofNat 9 rb.val) s

/-- An ALU instruction over two registers, format F2RR: both values are read before any write
(spec/41_alu.md R120). -/
def execAluRR (op : AluOp) (a b : Byte) (s : State) : Result :=
  withRegs a b s fun ra rb => aluWriteBack ra rb 3 s (alu op (s.readReg ra) (s.readReg rb))

/-- ADD Ra,Rb (spec/41_alu.md R121). -/
def execAdd (a b : Byte) (s : State) : Result := execAluRR .add a b s

/-- SUB Ra,Rb (spec/41_alu.md R122). -/
def execSub (a b : Byte) (s : State) : Result := execAluRR .sub a b s

/-- MUL Ra,Rb (spec/41_alu.md R123). -/
def execMul (a b : Byte) (s : State) : Result := execAluRR .mul a b s

/-- DIV Ra,Rb (spec/41_alu.md R124). -/
def execDiv (a b : Byte) (s : State) : Result := execAluRR .div a b s

/-- MOD Ra,Rb (spec/41_alu.md R125). -/
def execMod (a b : Byte) (s : State) : Result := execAluRR .mod a b s

/-- CMP Ra,Rb (spec/41_alu.md R126). -/
def execCmp (a b : Byte) (s : State) : Result := execAluRR .cmp a b s

/-- AND Ra,Rb (spec/41_alu.md R127). -/
def execAnd (a b : Byte) (s : State) : Result := execAluRR .and a b s

/-- OR Ra,Rb (spec/41_alu.md R128). -/
def execOr (a b : Byte) (s : State) : Result := execAluRR .or a b s

/-- XOR Ra,Rb (spec/41_alu.md R129). -/
def execXor (a b : Byte) (s : State) : Result := execAluRR .xor a b s

/-- NOT Ra, format F1R, one operand byte (spec/41_alu.md R130; D2, log entry 4). The ALU's second value is a
don't-care. -/
def execNot (a : Byte) (s : State) : Result :=
  withReg a s fun ra => aluWriteBack ra ra 2 s (alu .not (s.readReg ra) 0#8)

/-- SHL Ra,Rb (spec/41_alu.md R131). -/
def execShl (a b : Byte) (s : State) : Result := execAluRR .shl a b s

/-- SHR Ra,Rb (spec/41_alu.md R132). -/
def execShr (a b : Byte) (s : State) : Result := execAluRR .shr a b s

end Sys2Proof.Machine
end

