-- ==== Sys2Proof/Machine/ControlFlow.lean ====
section
/-! DEFINITION. The jumps JMP, JEQ, JNE (spec/43_control_flow.md). -/

namespace Sys2Proof.Machine

/-- A register-indirect jump of two bytes: to `x[ra]` if taken, otherwise past the instruction. The register index is
checked whether or not the jump is taken (spec/43_control_flow.md R170, R172). -/
def jumpIf (taken : Bool) (a : Byte) (s : State) : Result :=
  withReg a s fun ra =>
    if taken then .next (s.setPc (zext9 (s.readReg ra))) else .next (s.advance 2)

/-- JMP Ra (spec/43_control_flow.md R171). -/
def execJmp (a : Byte) (s : State) : Result := jumpIf true a s

/-- JEQ Ra (spec/43_control_flow.md R172). -/
def execJeq (a : Byte) (s : State) : Result := jumpIf (jumpsIfEqual s.flags) a s

/-- JNE Ra (spec/43_control_flow.md R173). -/
def execJne (a : Byte) (s : State) : Result := jumpIf (jumpsIfNotEqual s.flags) a s

end Sys2Proof.Machine
end

