-- ==== Sys2Proof/Machine/Stack.lean ====
section
/-! DEFINITION. The stack instructions PUSH, POP, CALL, RET (spec/42_stack_call.md). -/

namespace Sys2Proof.Machine

/-- PUSH Ra: `x[a]` is read after the decrement, so PUSH R7 stores the decremented pointer
(spec/42_stack_call.md R151; D12, log entry 13). -/
def execPush (a : Byte) (s : State) : Result :=
  withReg a s fun ra =>
    withPushSlot s fun t =>
      .next ((t.memWrite t.sp (t.readReg ra)).advance 2)

/-- POP Ra: the popped byte is written, then `x[7]` is incremented, so POP R7 ends with the popped byte plus 1, and a
popped 0xFF raises StackFault there (spec/42_stack_call.md R152; D12, log entry 13). -/
def execPop (a : Byte) (s : State) : Result :=
  withReg a s fun ra =>
    withPopped s fun v =>
      if ra = Config.spIndex ∧ v = 0xFF#8 then raise .stackFault (zext9 v) s
      else
        let t := s.writeReg ra v
        .next ((t.setSp (t.sp + 1#8)).advance 2)

/-- CALL Ra: the return address is checked before the stack, and `x[a]` is read after the push, so CALL R7 jumps to
the decremented pointer (spec/42_stack_call.md R153; D6, D12, log entries 13 and 14). -/
def execCall (a : Byte) (s : State) : Result :=
  withReg a s fun ra =>
    if 255 < s.pcPlus 2 then raise .outOfBounds (BitVec.ofNat 9 (s.pcPlus 2)) s
    else
      withPushSlot s fun t =>
        let u := t.memWrite t.sp (BitVec.ofNat 8 (s.pcPlus 2))
        .next (u.setPc (zext9 (u.readReg ra)))

/-- RET: the byte at the top of the stack becomes the program counter (spec/42_stack_call.md R154). -/
def execRet (s : State) : Result :=
  withPopped s fun v => .next ((s.setPc (zext9 v)).setSp (s.sp + 1#8))

end Sys2Proof.Machine
end

