-- ==== Sys2Proof/Machine/System.lean ====
section
/-! DEFINITION. LDI, PRN, HLT (spec/44_ldi_prn_hlt.md). -/

namespace Sys2Proof.Machine

/-- LDI Ra,imm: `b` is the immediate itself and may be any byte (spec/44_ldi_prn_hlt.md R181). -/
def execLdi (a b : Byte) (s : State) : Result :=
  withReg a s fun ra => .next ((s.writeReg ra b).advance 3)

/-- PRN Ra: append `x[a]` to the output (spec/44_ldi_prn_hlt.md R182). -/
def execPrn (a : Byte) (s : State) : Result :=
  withReg a s fun ra => .next ((s.output (s.readReg ra)).advance 2)

/-- HLT: a clean stop, with the program counter advanced by 1 (spec/44_ldi_prn_hlt.md R183; D31, log entry 16). -/
def execHlt (s : State) : Result := .next (s.halt.advance 1)

end Sys2Proof.Machine
end

