-- ==== Sys2Proof/Syntax.lean ====
section
/-! DEFINITION. The 22 instructions of LS8 as syntax: one constructor per row of spec/opcode_table.json. -/

namespace Sys2Proof

/-- An instruction with its operand bytes as they are fetched (spec/30_encoding.md R72, R73): `a` and `b` are whole
bytes. A byte used as a register index may be any value here; that it is 0 to 7 is `Instr.WellFormed`, and an
instruction with a larger index is executed too: it raises OutOfBounds (spec/40_engine_cycle.md R104). -/
inductive Instr where
  /-- HLT: stop the engine (spec/44_ldi_prn_hlt.md R183). -/
  | hlt
  /-- RET: pop the program counter (spec/42_stack_call.md R154). -/
  | ret
  /-- PUSH Ra (R151). -/
  | push (a : Byte)
  /-- POP Ra (R152). -/
  | pop (a : Byte)
  /-- PRN Ra: output a register (spec/44_ldi_prn_hlt.md R182). -/
  | prn (a : Byte)
  /-- CALL Ra: push the return address and jump (spec/42_stack_call.md R153). -/
  | call (a : Byte)
  /-- JMP Ra (spec/43_control_flow.md R171). -/
  | jmp (a : Byte)
  /-- JEQ Ra (R172). -/
  | jeq (a : Byte)
  /-- JNE Ra (R173). -/
  | jne (a : Byte)
  /-- NOT Ra (spec/41_alu.md R130). -/
  | not (a : Byte)
  /-- LDI Ra,imm: `b` is the immediate (spec/44_ldi_prn_hlt.md R181). -/
  | ldi (a b : Byte)
  /-- ADD Ra,Rb (spec/41_alu.md R121). -/
  | add (a b : Byte)
  /-- SUB Ra,Rb (R122). -/
  | sub (a b : Byte)
  /-- MUL Ra,Rb (R123). -/
  | mul (a b : Byte)
  /-- DIV Ra,Rb (R124). -/
  | div (a b : Byte)
  /-- MOD Ra,Rb (R125). -/
  | mod (a b : Byte)
  /-- CMP Ra,Rb (R126). -/
  | cmp (a b : Byte)
  /-- AND Ra,Rb (R127). -/
  | and (a b : Byte)
  /-- OR Ra,Rb (R128). -/
  | or (a b : Byte)
  /-- XOR Ra,Rb (R129). -/
  | xor (a b : Byte)
  /-- SHL Ra,Rb (R131). -/
  | shl (a b : Byte)
  /-- SHR Ra,Rb (R132). -/
  | shr (a b : Byte)
  deriving DecidableEq, Repr

end Sys2Proof
end

