-- ==== Sys2Proof/WellFormed.lean ====
section
/-! DEFINITION. Which instruction terms are well formed: every operand byte that is a register index is 0 to 7. -/

namespace Sys2Proof

/-- A legal register-index operand: the whole byte, 0 to 7 (spec/30_encoding.md R73). -/
def regByteOk (v : Byte) : Bool := decide (v.toNat < 8)

/-- Every register operand of the instruction is a legal index (spec/30_encoding.md R72, R73); LDI's `b` is an
immediate and is not checked (spec/44_ldi_prn_hlt.md R181). -/
def Instr.wf : Instr → Bool
  | .hlt => true
  | .ret => true
  | .push a => regByteOk a
  | .pop a => regByteOk a
  | .prn a => regByteOk a
  | .call a => regByteOk a
  | .jmp a => regByteOk a
  | .jeq a => regByteOk a
  | .jne a => regByteOk a
  | .not a => regByteOk a
  | .ldi a _ => regByteOk a
  | .add a b => regByteOk a && regByteOk b
  | .sub a b => regByteOk a && regByteOk b
  | .mul a b => regByteOk a && regByteOk b
  | .div a b => regByteOk a && regByteOk b
  | .mod a b => regByteOk a && regByteOk b
  | .cmp a b => regByteOk a && regByteOk b
  | .and a b => regByteOk a && regByteOk b
  | .or a b => regByteOk a && regByteOk b
  | .xor a b => regByteOk a && regByteOk b
  | .shl a b => regByteOk a && regByteOk b
  | .shr a b => regByteOk a && regByteOk b

/-- An instruction whose register operands are all legal. -/
abbrev Instr.WellFormed (i : Instr) : Prop := i.wf = true

end Sys2Proof
end

