-- ==== Sys2Proof/Decode.lean ====
section
/-! DEFINITION. The decoder (total on bytes, rejecting by name), the decoder's classification outputs and the
encoder, from the opcode map of spec/30_encoding.md R78. -/

namespace Sys2Proof

/-- The operand bytes an opcode asks for and the instruction it makes of them: formats F0, F1R, and the two
two-operand formats F2RR and F2RI (spec/30_encoding.md R72). -/
inductive OpShape where
  /-- No operand byte. -/
  | none (i : Instr)
  /-- One operand byte. -/
  | one (make : Byte → Instr)
  /-- Two operand bytes. -/
  | two (make : Byte → Byte → Instr)

/-- The opcode map: all 8 bits of the opcode byte select the instruction, and the 234 other values select nothing
(spec/30_encoding.md R78, R81). PRESUMED, unsafe: the low nibbles are the public LS8 values, which the spec takes from
general knowledge (D1); log entry 1. -/
def opShape (op : Byte) : Option OpShape :=
  match op.toNat with
  | 0x01 => some (.none .hlt)
  | 0x11 => some (.none .ret)
  | 0x45 => some (.one .push)
  | 0x46 => some (.one .pop)
  | 0x47 => some (.one .prn)
  | 0x50 => some (.one .call)
  | 0x54 => some (.one .jmp)
  | 0x55 => some (.one .jeq)
  | 0x56 => some (.one .jne)
  | 0x69 => some (.one .not)
  | 0x82 => some (.two .ldi)
  | 0xA0 => some (.two .add)
  | 0xA1 => some (.two .sub)
  | 0xA2 => some (.two .mul)
  | 0xA3 => some (.two .div)
  | 0xA4 => some (.two .mod)
  | 0xA7 => some (.two .cmp)
  | 0xA8 => some (.two .and)
  | 0xAA => some (.two .or)
  | 0xAB => some (.two .xor)
  | 0xAC => some (.two .shl)
  | 0xAD => some (.two .shr)
  | _ => Option.none

/-- Why a sequence of bytes is no instruction. -/
inductive DecodeError where
  /-- There is no opcode byte: the program counter is past the last cell. -/
  | noOpcode
  /-- The opcode byte is none of the 22. -/
  | illegalOpcode (op : Byte)
  /-- Operand byte number `k` (1 or 2) of a known opcode is past the last cell. -/
  | missingOperand (k : Nat)
  deriving DecidableEq, Repr

/-- Decode one instruction from the bytes in address order and return the bytes after it. The opcode is looked up
before any operand byte is asked for, and operand `a` is asked for before `b` (spec/40_engine_cycle.md R100 to R103). -/
def decode : List Byte → Except DecodeError (Instr × List Byte)
  | [] => .error .noOpcode
  | op :: rest =>
    match opShape op with
    | Option.none => .error (.illegalOpcode op)
    | some (.none i) => .ok (i, rest)
    | some (.one make) =>
      match rest with
      | [] => .error (.missingOperand 1)
      | a :: rest => .ok (make a, rest)
    | some (.two make) =>
      match rest with
      | [] => .error (.missingOperand 1)
      | [_] => .error (.missingOperand 2)
      | a :: b :: rest => .ok (make a b, rest)

/-- `n_operands = op[7:6]` (spec/30_encoding.md R71, R80). -/
def operandCount (op : Byte) : Nat := op.toNat / 64

/-- `is_alu = op[5]` (spec/30_encoding.md R71, R80). -/
def isAlu (op : Byte) : Bool := op.getLsbD 5

/-- `sets_pc = op[4]` (spec/30_encoding.md R71, R80). -/
def setsPc (op : Byte) : Bool := op.getLsbD 4

/-- `id = op[3:0]` (spec/30_encoding.md R71, R80). -/
def identifier (op : Byte) : Nat := op.toNat % 16

/-- `known`: whether the byte is one of the 22 opcodes (spec/30_encoding.md R80). -/
def known (op : Byte) : Bool := (opShape op).isSome

/-- The decoder's classification outputs for an opcode byte, known or not (spec/30_encoding.md R80, R82). -/
structure Classification where
  nOperands : Nat
  isAlu : Bool
  setsPc : Bool
  id : Nat
  known : Bool
  deriving DecidableEq, Repr

/-- All classification outputs of one byte (spec/30_encoding.md R80). -/
def classify (op : Byte) : Classification :=
  ⟨operandCount op, isAlu op, setsPc op, identifier op, known op⟩

/-- The opcode byte of an instruction (spec/30_encoding.md R78). PRESUMED in its low nibble, unsafe: D1; log entry 1. -/
def opcodeOf : Instr → Byte
  | .hlt => 0x01#8
  | .ret => 0x11#8
  | .push _ => 0x45#8
  | .pop _ => 0x46#8
  | .prn _ => 0x47#8
  | .call _ => 0x50#8
  | .jmp _ => 0x54#8
  | .jeq _ => 0x55#8
  | .jne _ => 0x56#8
  | .not _ => 0x69#8
  | .ldi _ _ => 0x82#8
  | .add _ _ => 0xA0#8
  | .sub _ _ => 0xA1#8
  | .mul _ _ => 0xA2#8
  | .div _ _ => 0xA3#8
  | .mod _ _ => 0xA4#8
  | .cmp _ _ => 0xA7#8
  | .and _ _ => 0xA8#8
  | .or _ _ => 0xAA#8
  | .xor _ _ => 0xAB#8
  | .shl _ _ => 0xAC#8
  | .shr _ _ => 0xAD#8

/-- The operand bytes of an instruction in address order (spec/30_encoding.md R72; spec/20_memory.md R54). -/
def operandBytes : Instr → List Byte
  | .hlt => []
  | .ret => []
  | .push a => [a]
  | .pop a => [a]
  | .prn a => [a]
  | .call a => [a]
  | .jmp a => [a]
  | .jeq a => [a]
  | .jne a => [a]
  | .not a => [a]
  | .ldi a b => [a, b]
  | .add a b => [a, b]
  | .sub a b => [a, b]
  | .mul a b => [a, b]
  | .div a b => [a, b]
  | .mod a b => [a, b]
  | .cmp a b => [a, b]
  | .and a b => [a, b]
  | .or a b => [a, b]
  | .xor a b => [a, b]
  | .shl a b => [a, b]
  | .shr a b => [a, b]

/-- The bytes of an instruction: opcode, then operands, at ascending addresses (spec/30_encoding.md R70, R72). -/
def encode (i : Instr) : List Byte := opcodeOf i :: operandBytes i

/-- The three bytes that an instruction's table bits `w` stand for: bits 7..0 are the opcode byte, 15..8 the byte
`a`, 23..16 the byte `b`; bits at and above `nbits` are 0. -/
def tableBytes (nbits w : Nat) : List Byte :=
  let v := w % 2 ^ nbits
  [BitVec.ofNat 8 v, BitVec.ofNat 8 (v / 256), BitVec.ofNat 8 (v / 65536)]

/-- The instruction the decoder reads from an instruction whose bits are `w`, numbered as spec/opcode_table.json
numbers them. -/
def decodeTableWord (nbits w : Nat) : Option Instr :=
  match decode (tableBytes nbits w) with
  | .ok (i, _) => some i
  | .error _ => Option.none

end Sys2Proof
end

