-- ==== Sys2Proof/Machine/Fetch.lean ====
section
/-! DEFINITION. Fetching an instruction's bytes at the program counter, the errors of fetch and decode, and placing
an instruction's bytes where the engine fetches next. -/

namespace Sys2Proof.Machine

/-- At most `n` bytes of memory from an address upward, ending at the last cell: an address above 0xFF is never
accessed and never wraps (spec/20_memory.md R56). -/
def bytesFrom (m : Memory) : Nat → Nat → List Byte
  | 0, _ => []
  | n + 1, addr =>
    if addr < Config.memSize then Memory.read m addr :: bytesFrom m n (addr + 1) else []

/-- The bytes at the program counter that exist, as many as the longest instruction has
(spec/30_encoding.md R70; spec/40_engine_cycle.md R101, R103). A read has no side effect, so reading a byte that the
instruction does not have is invisible (log entry 24). -/
def fetchBytes (s : State) : List Byte := bytesFrom s.mem 3 s.pc.toNat

/-- The fatal error of a failed fetch or decode: past the end of memory, OutOfBounds with the first address that does
not exist; an unknown opcode, IllegalInstruction with the byte (spec/40_engine_cycle.md R101 to R103;
spec/60_exceptions.md R203, R209). -/
def raiseDecodeError (e : DecodeError) (s : State) : Result :=
  match e with
  | .noOpcode => raise .outOfBounds s.pc s
  | .illegalOpcode op => raise .illegalInstruction (zext9 op) s
  | .missingOperand k => raise .outOfBounds (BitVec.ofNat 9 (s.pcPlus k)) s

/-- Write bytes into memory from an address upward; bytes past the last cell are dropped. -/
def placeBytes (m : Memory) : Nat → List Byte → Memory
  | _, [] => m
  | addr, v :: rest =>
    if addr < Config.memSize then placeBytes (Memory.write m addr v) (addr + 1) rest else m

/-- The state with an instruction's bytes at the program counter, so that the next step runs exactly it: where three
bytes do not fit at the program counter, it starts at START_PC instead, and a Halted engine is made Ready and its
error record cleared, as a load would (log entry 18). -/
def placeInstr (bytes : List Byte) (s : State) : State :=
  let s := if s.pc.toNat + 3 ≤ Config.memSize then s else s.setPc (zext9 Config.startPc)
  let s := if s.status = .halted then { s with status := .ready, running := false, fault := none } else s
  { s with mem := placeBytes s.mem s.pc.toNat bytes }

end Sys2Proof.Machine
end

