-- ==== Sys2Proof/Machine/Step.lean ====
section
/-! DEFINITION. The engine's step (spec/40_engine_cycle.md R100). -/

namespace Sys2Proof.Machine

/-- Fetch, decode and execute one instruction at the program counter. -/
def runInstr (s : State) : Host.Outcome State Fault Refusal :=
  match decode (fetchBytes s) with
  | .ok (i, _) => exec i s
  | .error e => raiseDecodeError e s

/-- One step: nothing in state Halted; otherwise Ready becomes Running and one instruction runs
(spec/40_engine_cycle.md R100, R110). -/
def step (s : State) : Host.Outcome State Fault Refusal :=
  match s.status with
  | .halted => .next s
  | .ready => runInstr s.start
  | .running => runInstr s.start

/-- The state with the instruction whose table bits are `w` stored where `step` fetches its next instruction. -/
def State.withFetchWord (s : State) (nbits w : Nat) : State := placeInstr (tableBytes nbits w) s

end Sys2Proof.Machine
end

