-- ==== Sys2Proof/Machine/HostInterface.lean ====
section
/-! DEFINITION. What the host can do to the engine between steps: load, step, run, and read
(spec/70_reset_and_hazards.md R230 to R241). -/

namespace Sys2Proof.Machine

/-- Whether `load` takes an image: at most 256 bytes (spec/70_reset_and_hazards.md R232). -/
def loadAccepts (image : List Byte) : Bool := decide (image.length ≤ Config.memSize)

/-- `load(image, start_pc)`: the one reset and load operation. The image is copied to address 0 upward and everything
else takes its reset value; an image that is too long is refused and the state is unchanged
(spec/70_reset_and_hazards.md R230, R231, R232; log entry 17). -/
def load (image : List Byte) (startPc : Byte) (s : State) : State :=
  if loadAccepts image then
    { State.reset with pc := zext9 startPc, mem := Memory.ofBytes 0 image }
  else s

/-- `step()` as the host calls it: the new state and "whether still running", which is RUNNING after the step
(spec/40_engine_cycle.md R108). No step faults or is refused, so the last two cases never arise. -/
def hostStep (s : State) : State × Bool :=
  match step s with
  | .next t => (t, t.running)
  | .fault _ => (s, false)
  | .refused _ => (s, false)

/-- `run()`: repeat `step()` until it returns false (spec/40_engine_cycle.md R108), with fuel for the model's sake
(R112): `none` says that the fuel ran out first. -/
def run : Nat → State → Option State
  | 0, _ => none
  | n + 1, s =>
    match hostStep s with
    | (t, true) => run n t
    | (t, false) => some t

/-! ### Read accessors (R240): reading has no side effect. -/

/-- All eight registers. -/
def readRegisters (s : State) : List Byte := s.regs.toList

/-- The flags, singly. -/
def readFlags (s : State) : Flags := s.flags

/-- The flags, packed (spec/10_state.md R32). -/
def readPackedFlags (s : State) : Byte := s.flags.packed

/-- One memory cell. -/
def readMemory (s : State) (addr : Byte) : Byte := s.memRead addr

/-- The error report: the numeric code of the kind, `pc` and `info` (spec/60_exceptions.md R200, R203). -/
def readError (s : State) : Option (Nat × Word9 × Word9) :=
  s.fault.map fun r => (r.kind.code, r.pc, r.info)

/-- The text of one output value: its decimal numeral (spec/44_ldi_prn_hlt.md R182). -/
def decimalText (v : Byte) : String := toString v.toNat

/-- The text of the whole output; what separates two outputs is the output collaborator's (`OUT_SEPARATOR`, D21;
log entry 19). -/
def outputText (separator : String) (s : State) : String :=
  separator.intercalate (s.out.map decimalText)

end Sys2Proof.Machine
end

