-- ==== Sys2Proof/Safety.lean ====
section
/-! DEFINITION. What counts as a safe run and a sound state, and the words the statements use for what an instruction
leaves unchanged. -/

namespace Sys2Proof.Machine

/-! ### Ends of a run -/

/-- A clean end: Halted with no error (spec/00_scope.md R12). -/
def State.CleanEnd (s : State) : Prop := s.status = .halted ∧ s.fault = none

/-- An end by a fatal error (spec/60_exceptions.md R206). -/
def State.ErrorEnd (s : State) : Prop := s.status = .halted ∧ s.fault ≠ none

/-! ### The invariant of the machine -/

/-- At most one flag is set (spec/10_state.md R31). -/
def Flags.AtMostOne (f : Flags) : Prop :=
  (f.e && f.g) = false ∧ (f.e && f.l) = false ∧ (f.g && f.l) = false

/-- Exactly one flag is set (spec/10_state.md R31). -/
def Flags.ExactlyOne (f : Flags) : Prop := f.AtMostOne ∧ (f.e || f.g || f.l) = true

/-- The values `info` can have in a record of each kind (spec/60_exceptions.md R203). -/
def FaultRecord.Legal (r : FaultRecord) : Prop :=
  match r.kind with
  | .illegalInstruction => r.info.toNat < 256 ∧ known (r.info.setWidth 8) = false
  | .divisionByZero => r.info.toNat < 8
  | .stackFault => r.info.toNat = 0 ∨ r.info.toNat = 255
  | .outOfBounds => 8 ≤ r.info.toNat ∧ r.info.toNat ≤ 256

/-- What every state of a run satisfies. -/
structure State.Inv (s : State) : Prop where
  /-- Memory is in canonical form. -/
  memory : Memory.wf s.mem = true
  /-- The program counter is 0 to 256 (spec/10_state.md R26). -/
  pc_le : s.pc.toNat ≤ 256
  /-- RUNNING is 1 exactly in state Running (spec/10_state.md R33). -/
  running_iff : s.running = true ↔ s.status = .running
  /-- At most one flag is set (spec/10_state.md R31). -/
  flags_one : s.flags.AtMostOne
  /-- An error record stands only in state Halted, is legal, and holds the program counter, which an error leaves in
  place (spec/10_state.md R34; spec/60_exceptions.md R203, R205). -/
  fault_sound : ∀ r, s.fault = some r → s.status = .halted ∧ r.pc = s.pc ∧ r.Legal

/-! ### What an instruction leaves unchanged -/

/-- Every register but those listed keeps its value. -/
def KeepsRegs (s t : State) (except : List RegIndex) : Prop :=
  ∀ r, r ∉ except → t.readReg r = s.readReg r

/-- Every cell of memory keeps its byte. -/
def KeepsMem (s t : State) : Prop := ∀ addr : Byte, t.memRead addr = s.memRead addr

/-- Every cell of memory but one keeps its byte. -/
def KeepsMemExcept (s t : State) (slot : Byte) : Prop :=
  ∀ addr : Byte, addr ≠ slot → t.memRead addr = s.memRead addr

/-- The flags and the output keep their values. -/
def KeepsFlagsOut (s t : State) : Prop := t.flags = s.flags ∧ t.out = s.out

/-- RUNNING, STATE and FAULT keep their values. -/
def KeepsStatus (s t : State) : Prop :=
  t.running = s.running ∧ t.status = s.status ∧ t.fault = s.fault

/-! ### Shapes of result statements -/

/-- The result of a two-register ALU instruction, for every pair of legal indices, the same register twice and
register 7 among them: its encoding is `op a b`; it completes; the first register gets `f` of the two OLD values; the
program counter advances by 3; nothing else changes (spec/41_alu.md R120, R133, R134). -/
def AluRRResult (make : Byte → Byte → Instr) (op : Byte) (f : Nat → Nat → Nat) : Prop :=
  ∀ (a b : Byte) (ha : a.toNat < 8) (hb : b.toNat < 8) (s : State),
    encode (make a b) = [op, a, b] ∧
    ∃ t, exec (make a b) s = .next t ∧
      (t.readReg ⟨a.toNat, ha⟩).toNat =
        f (s.readReg ⟨a.toNat, ha⟩).toNat (s.readReg ⟨b.toNat, hb⟩).toNat ∧
      t.pc = s.pc + 3#9 ∧ KeepsRegs s t [⟨a.toNat, ha⟩] ∧
      KeepsMem s t ∧ KeepsFlagsOut s t ∧ KeepsStatus s t

/-- The same for DIV and MOD, whose result is defined for a non-zero divisor; a zero divisor raises DivisionByZero with
the divisor's register index and changes nothing else (spec/41_alu.md R124, R125). -/
def DivisionResult (make : Byte → Byte → Instr) (op : Byte) (f : Nat → Nat → Nat) : Prop :=
  ∀ (a b : Byte) (ha : a.toNat < 8) (hb : b.toNat < 8) (s : State),
    encode (make a b) = [op, a, b] ∧
    (s.readReg ⟨b.toNat, hb⟩ = 0#8 →
      exec (make a b) s = .next { s with fault := some ⟨.divisionByZero, s.pc, b.setWidth 9⟩,
                                         running := false, status := .halted }) ∧
    (s.readReg ⟨b.toNat, hb⟩ ≠ 0#8 →
      ∃ t, exec (make a b) s = .next t ∧
        (t.readReg ⟨a.toNat, ha⟩).toNat =
          f (s.readReg ⟨a.toNat, ha⟩).toNat (s.readReg ⟨b.toNat, hb⟩).toNat ∧
        t.pc = s.pc + 3#9 ∧ KeepsRegs s t [⟨a.toNat, ha⟩] ∧
        KeepsMem s t ∧ KeepsFlagsOut s t ∧ KeepsStatus s t)

/-- A conditional jump: its encoding is `op a`; it completes; taken, the program counter is the register's value
zero-extended, otherwise the address after the two bytes; nothing else changes (spec/43_control_flow.md R170). -/
def JumpResult (make : Byte → Instr) (op : Byte) (taken : State → Bool) : Prop :=
  ∀ (a : Byte) (ha : a.toNat < 8) (s : State),
    encode (make a) = [op, a] ∧
    ∃ t, exec (make a) s = .next t ∧
      t.pc = (if taken s then (s.readReg ⟨a.toNat, ha⟩).setWidth 9 else s.pc + 2#9) ∧
      KeepsRegs s t [] ∧ KeepsMem s t ∧ KeepsFlagsOut s t ∧ KeepsStatus s t

end Sys2Proof.Machine
end

