-- ==== Sys2Proof/Certificates/Slice0/Obligations.lean ====
section
/-! DEFINITION. The statements for the provers, each a claim about the machine that formalises a rule of spec/. -/

section

open Sys2Proof Sys2Proof.Machine

/-! ### Encoding and decoding -/

/-- The opcode map, all 22 rows: each opcode byte with its operand bytes decodes to its instruction, whatever the
operand bytes are and whatever follows. Rests on the spec's own choice of the low nibbles (D1; log entry 1). -/
def Obligations.OpcodeMapDecodes : Prop :=
  ∀ (a b : Byte) (rest : List Byte),
    decode (0x01#8 :: rest) = .ok (.hlt, rest) ∧
    decode (0x11#8 :: rest) = .ok (.ret, rest) ∧
    decode (0x45#8 :: a :: rest) = .ok (.push a, rest) ∧
    decode (0x46#8 :: a :: rest) = .ok (.pop a, rest) ∧
    decode (0x47#8 :: a :: rest) = .ok (.prn a, rest) ∧
    decode (0x50#8 :: a :: rest) = .ok (.call a, rest) ∧
    decode (0x54#8 :: a :: rest) = .ok (.jmp a, rest) ∧
    decode (0x55#8 :: a :: rest) = .ok (.jeq a, rest) ∧
    decode (0x56#8 :: a :: rest) = .ok (.jne a, rest) ∧
    decode (0x69#8 :: a :: rest) = .ok (.not a, rest) ∧
    decode (0x82#8 :: a :: b :: rest) = .ok (.ldi a b, rest) ∧
    decode (0xA0#8 :: a :: b :: rest) = .ok (.add a b, rest) ∧
    decode (0xA1#8 :: a :: b :: rest) = .ok (.sub a b, rest) ∧
    decode (0xA2#8 :: a :: b :: rest) = .ok (.mul a b, rest) ∧
    decode (0xA3#8 :: a :: b :: rest) = .ok (.div a b, rest) ∧
    decode (0xA4#8 :: a :: b :: rest) = .ok (.mod a b, rest) ∧
    decode (0xA7#8 :: a :: b :: rest) = .ok (.cmp a b, rest) ∧
    decode (0xA8#8 :: a :: b :: rest) = .ok (.and a b, rest) ∧
    decode (0xAA#8 :: a :: b :: rest) = .ok (.or a b, rest) ∧
    decode (0xAB#8 :: a :: b :: rest) = .ok (.xor a b, rest) ∧
    decode (0xAC#8 :: a :: b :: rest) = .ok (.shl a b, rest) ∧
    decode (0xAD#8 :: a :: b :: rest) = .ok (.shr a b, rest)

/-- Decode and encode agree, both ways, for every instruction with every operand byte: bytes decode to an instruction
exactly when they are its encoding followed by the rest. So every encoding is read back whole, and every instruction
has one encoding. -/
def Obligations.DecodeExactlyEncodings : Prop :=
  ∀ (bytes rest : List Byte) (i : Instr), decode bytes = .ok (i, rest) ↔ bytes = encode i ++ rest

/-- Every byte but the 22 opcodes is rejected as an illegal opcode, whatever follows it, and 234 bytes are so. The set
of instructions is the spec's own decision (D3, D4; log entry 5). -/
def Obligations.UnknownOpcodesRejected : Prop :=
  (∀ (op : Byte) (rest : List Byte),
    decode (op :: rest) = .error (.illegalOpcode op) ↔
      op ∉ [0x01#8, 0x11#8, 0x45#8, 0x46#8, 0x47#8, 0x50#8, 0x54#8, 0x55#8, 0x56#8, 0x69#8, 0x82#8, 0xA0#8, 0xA1#8,
            0xA2#8, 0xA3#8, 0xA4#8, 0xA7#8, 0xA8#8, 0xAA#8, 0xAB#8, 0xAC#8, 0xAD#8]) ∧
  ((List.range 256).filter fun n => !known (BitVec.ofNat 8 n)).length = 234

/-- The operand count in the opcode's top two bits is the instruction's number of operand bytes, the count the spec
gives for it, and the `B` bit is 1 for the twelve ALU instructions and 0 for the others. That NOT has one operand byte is
the spec's own decision D2 (R75, log entry 4), since its source does not give NOT's count. -/
def Obligations.OpcodeBitsDescribeInstruction : Prop :=
  ∀ i : Instr,
    operandCount (opcodeOf i) = (operandBytes i).length ∧
    (operandBytes i).length =
      (match i with
       | .hlt | .ret => 0
       | .push _ | .pop _ | .prn _ | .call _ | .jmp _ | .jeq _ | .jne _ | .not _ => 1
       | .ldi _ _ | .add _ _ | .sub _ _ | .mul _ _ | .div _ _ | .mod _ _ | .cmp _ _ | .and _ _ | .or _ _ | .xor _ _
       | .shl _ _ | .shr _ _ => 2) ∧
    isAlu (opcodeOf i) =
      (match i with
       | .add _ _ | .sub _ _ | .mul _ _ | .div _ _ | .mod _ _ | .cmp _ _ | .and _ _ | .or _ _ | .xor _ _ | .not _
       | .shl _ _ | .shr _ _ => true
       | .hlt | .ret | .push _ | .pop _ | .prn _ | .call _ | .jmp _ | .jeq _ | .jne _ | .ldi _ _ => false)

/-! ### The step -/

/-- A step runs the decoded instruction: unless the engine is Halted, when the bytes at the program counter decode to
`i`, the step is `exec i` at that state, with Ready made Running first. -/
def Obligations.StepRunsDecodedInstruction : Prop :=
  ∀ (s : State) (i : Instr) (rest : List Byte), s.status ≠ .halted → decode (fetchBytes s) = .ok (i, rest) →
    step s = exec i (if s.status = .ready then { s with status := .running, running := true } else s)

/-- The model's look-ahead at the program counter: the bytes of memory there and after it, as many as exist up to three.
Reading them before the opcode is known is the model's choice (log entry 24, DEDUCED from R57, a read has no side
effect); by R102 and R103 the hardware fetches only the operand bytes a known opcode asks for. That no byte lies past
0xFF and no address wraps is the spec's own decision D8 (log entry 10). -/
def Obligations.FetchReadsMemoryAtPc : Prop :=
  ∀ (s : State) (k : Nat),
    (fetchBytes s)[k]? =
      if k < 3 ∧ s.pc.toNat + k < 256 then some (s.memRead (BitVec.ofNat 8 (s.pc.toNat + k))) else none

/-- Fetch: the opcode is the byte at the program counter; with the program counter past 0xFF the step raises
OutOfBounds with the program counter as `info`. -/
def Obligations.FetchPastEndRaises : Prop :=
  ∀ s : State, s.status ≠ .halted →
    (s.pc.toNat ≤ 255 → (fetchBytes s)[0]? = some (s.memRead (s.pc.setWidth 8))) ∧
    (255 < s.pc.toNat →
      step s = .next { s with fault := some ⟨.outOfBounds, s.pc, s.pc⟩, running := false, status := .halted })

/-- Decode and dispatch: an opcode byte that is none of the 22 raises IllegalInstruction with the byte, whatever the
operand bytes; a known one whose operand bytes exist runs the one instruction with that opcode and those operands. -/
def Obligations.OpcodeSelectsInstruction : Prop :=
  ∀ s : State, s.status ≠ .halted → s.pc.toNat ≤ 255 →
    (known (s.memRead (s.pc.setWidth 8)) = false →
      step s = .next { s with fault := some ⟨.illegalInstruction, s.pc, (s.memRead (s.pc.setWidth 8)).setWidth 9⟩,
                              running := false, status := .halted }) ∧
    (known (s.memRead (s.pc.setWidth 8)) = true →
      s.pc.toNat + operandCount (s.memRead (s.pc.setWidth 8)) ≤ 255 →
      ∃ i, opcodeOf i = s.memRead (s.pc.setWidth 8) ∧
        operandBytes i =
          (List.range (operandCount (s.memRead (s.pc.setWidth 8)))).map
            (fun k => s.memRead (BitVec.ofNat 8 (s.pc.toNat + 1 + k))) ∧
        step s = exec i s.start)

/-- Operand fetch: a known opcode with an operand byte past 0xFF raises OutOfBounds with the first address that does
not exist, which is always 0x100. The spec's own decision D8 (log entry 10). -/
def Obligations.OperandPastEndRaises : Prop :=
  ∀ s : State, s.status ≠ .halted → s.pc.toNat ≤ 255 → known (s.memRead (s.pc.setWidth 8)) = true →
    255 < s.pc.toNat + operandCount (s.memRead (s.pc.setWidth 8)) →
    step s = .next { s with fault := some ⟨.outOfBounds, s.pc, 0x100#9⟩, running := false, status := .halted }

/-- The pc is sequenced once per step: an instruction with opcode bit 4 clear ends with the program counter past its
bytes, at most 256 and not wrapped; one with bit 4 set assigns the popped byte or the value of its register,
zero-extended, or, for JEQ and JNE, the address after it. The premise on the invariant holds in every state of a run
(`StepKeepsSoundState`). -/
def Obligations.PcSequencedOncePerStep : Prop :=
  ∀ (s t : State) (i : Instr) (rest : List Byte), s.Inv → s.status ≠ .halted →
    decode (fetchBytes s) = .ok (i, rest) → step s = .next t → t.fault = none →
    (setsPc (opcodeOf i) = false →
      t.pc.toNat = s.pc.toNat + 1 + operandCount (opcodeOf i) ∧ t.pc.toNat ≤ 256) ∧
    (setsPc (opcodeOf i) = true →
      (i = .ret ∧ t.pc = (s.memRead s.sp).setWidth 9) ∨
      (∃ a r, regOf a = some r ∧ (i = .call a ∨ i = .jmp a ∨ i = .jeq a ∨ i = .jne a) ∧
        t.pc = (t.readReg r).setWidth 9) ∨
      (∃ a, (i = .jeq a ∨ i = .jne a) ∧ t.pc.toNat = s.pc.toNat + 2))

/-! ### Fatal errors -/

/-- The entry into a fatal error writes the record, clears RUNNING, enters Halted, and changes nothing else. -/
def Obligations.ErrorEntryWritesRecord : Prop :=
  ∀ (k : ErrorKind) (info : Word9) (s : State),
    raise k info s = .next { s with fault := some ⟨k, s.pc, info⟩, running := false, status := .halted }

/-- A register-index operand above 7 raises OutOfBounds with the operand byte, `a` before `b`, whether or not the
register would be read; LDI's `b` is not checked. The spec's own decisions D7 and D10 (log entries 9 and 10). -/
def Obligations.RegisterIndexAboveSevenRaises : Prop :=
  ∀ (a b : Byte) (s : State),
    (8 ≤ a.toNat → ∀ i ∈ [Instr.push a, .pop a, .prn a, .call a, .jmp a, .jeq a, .jne a, .not a, .ldi a b, .add a b,
        .sub a b, .mul a b, .div a b, .mod a b, .cmp a b, .and a b, .or a b, .xor a b, .shl a b, .shr a b],
      exec i s = .next { s with fault := some ⟨.outOfBounds, s.pc, a.setWidth 9⟩,
                                running := false, status := .halted }) ∧
    (a.toNat < 8 → 8 ≤ b.toNat → ∀ i ∈ [Instr.add a b, .sub a b, .mul a b, .div a b, .mod a b, .cmp a b, .and a b,
        .or a b, .xor a b, .shl a b, .shr a b],
      exec i s = .next { s with fault := some ⟨.outOfBounds, s.pc, b.setWidth 9⟩,
                                running := false, status := .halted })

/-- A stack move that would leave 0x00 to 0xFF raises StackFault: PUSH and CALL at 0x00 (a CALL whose return address
fits), POP and RET at 0xFF, and POP R7 of the byte 0xFF. The spec's own decisions D11 and D12 (log entries 12 and
13). -/
def Obligations.StackFaultConditions : Prop :=
  ∀ (a : Byte) (s : State), a.toNat < 8 →
    (s.readReg 7 = 0x00#8 →
      exec (.push a) s = .next { s with fault := some ⟨.stackFault, s.pc, 0x000#9⟩,
                                        running := false, status := .halted } ∧
      (s.pc.toNat + 2 ≤ 255 →
        exec (.call a) s = .next { s with fault := some ⟨.stackFault, s.pc, 0x000#9⟩,
                                          running := false, status := .halted })) ∧
    (s.readReg 7 = 0xFF#8 →
      exec (.pop a) s = .next { s with fault := some ⟨.stackFault, s.pc, 0x0FF#9⟩,
                                       running := false, status := .halted } ∧
      exec .ret s = .next { s with fault := some ⟨.stackFault, s.pc, 0x0FF#9⟩,
                                   running := false, status := .halted }) ∧
    (s.readReg 7 ≠ 0xFF#8 → s.memRead (s.readReg 7) = 0xFF#8 →
      exec (.pop 7#8) s = .next { s with fault := some ⟨.stackFault, s.pc, 0x0FF#9⟩,
                                         running := false, status := .halted })

/-- A CALL at 0xFE, whose return address would be 0x100, raises OutOfBounds with 0x100, before the stack is looked at.
The spec's own decisions D6 and D10 (log entries 14 and 10). -/
def Obligations.CallAtTopOfMemoryRaises : Prop :=
  ∀ (a : Byte) (s : State), a.toNat < 8 → s.pc = 0x0FE#9 →
    exec (.call a) s = .next { s with fault := some ⟨.outOfBounds, 0x0FE#9, 0x100#9⟩,
                                      running := false, status := .halted }

/-- Errors are precise: a step that writes a record changes no register, flag, memory cell, output or program counter,
and the record holds the program counter of the instruction. The spec's own decision D9 extends it to every error (log
entry 11). -/
def Obligations.ErrorsArePrecise : Prop :=
  ∀ s t : State, step s = .next t → t.fault ≠ s.fault →
    t.regs = s.regs ∧ t.pc = s.pc ∧ t.flags = s.flags ∧ t.mem = s.mem ∧ t.out = s.out ∧
    t.running = false ∧ t.status = .halted ∧ ∃ k info, t.fault = some ⟨k, s.pc, info⟩

/-! ### Results of the instructions, each with what it leaves unchanged -/

/-- ADD, SUB and MUL: the exact sum, difference and product modulo 256. -/
def Obligations.ArithmeticResults : Prop :=
  AluRRResult .add 0xA0#8 (fun x y => (x + y) % 256) ∧
  AluRRResult .sub 0xA1#8 (fun x y => (((x : Int) - (y : Int)) % 256).toNat) ∧
  AluRRResult .mul 0xA2#8 (fun x y => x * y % 256)

/-- DIV and MOD: the unsigned quotient and remainder for a non-zero divisor, DivisionByZero for a zero one. That the
destination is unchanged too is the spec's own decision D9 (log entry 11). -/
def Obligations.DivisionResults : Prop :=
  DivisionResult .div 0xA3#8 (fun x y => x / y) ∧ DivisionResult .mod 0xA4#8 (fun x y => x % y)

/-- AND, OR and XOR: bit by bit. -/
def Obligations.BitwiseResults : Prop :=
  AluRRResult .and 0xA8#8 (fun x y => x &&& y) ∧
  AluRRResult .or 0xAA#8 (fun x y => x ||| y) ∧
  AluRRResult .xor 0xAB#8 (fun x y => x ^^^ y)

/-- SHL and SHR by the full 8-bit amount: an amount of 8 or more gives 0. The spec's own decision D13 (log entry 15). -/
def Obligations.ShiftResults : Prop :=
  AluRRResult .shl 0xAC#8 (fun x n => if n < 8 then x * 2 ^ n % 256 else 0) ∧
  AluRRResult .shr 0xAD#8 (fun x n => if n < 8 then x / 2 ^ n else 0)

/-- NOT: the complement over 8 bits, and applying it twice restores the value; the instruction has one operand byte by
the spec's own decision D2 (log entry 4). -/
def Obligations.NotResult : Prop :=
  ∀ (a : Byte) (ha : a.toNat < 8) (s : State),
    encode (.not a) = [0x69#8, a] ∧
    ∃ t, exec (.not a) s = .next t ∧
      (t.readReg ⟨a.toNat, ha⟩).toNat = 255 - (s.readReg ⟨a.toNat, ha⟩).toNat ∧
      t.pc = s.pc + 2#9 ∧ KeepsRegs s t [⟨a.toNat, ha⟩] ∧
      KeepsMem s t ∧ KeepsFlagsOut s t ∧ KeepsStatus s t ∧
      ∃ u, exec (.not a) t = .next u ∧ KeepsRegs s u []

/-- CMP: all three flags are written, exactly one is set, by the unsigned comparison of the two values, whatever the
flags were before; no register is written. The unsigned comparison and the clearing of all three flags first are the
spec's decision D15 (R126, log entry 27). -/
def Obligations.CompareSetsOneFlag : Prop :=
  ∀ (a b : Byte) (ha : a.toNat < 8) (hb : b.toNat < 8) (s : State),
    encode (.cmp a b) = [0xA7#8, a, b] ∧
    ∃ t, exec (.cmp a b) s = .next t ∧
      (t.flags.e = true ↔ (s.readReg ⟨a.toNat, ha⟩).toNat = (s.readReg ⟨b.toNat, hb⟩).toNat) ∧
      (t.flags.g = true ↔ (s.readReg ⟨a.toNat, ha⟩).toNat > (s.readReg ⟨b.toNat, hb⟩).toNat) ∧
      (t.flags.l = true ↔ (s.readReg ⟨a.toNat, ha⟩).toNat < (s.readReg ⟨b.toNat, hb⟩).toNat) ∧
      t.pc = s.pc + 3#9 ∧ KeepsRegs s t [] ∧ KeepsMem s t ∧ t.out = s.out ∧ KeepsStatus s t

/-- PUSH with the stack pointer above 0x00: the pointer moves down by one and the register's value, read after the
decrement, is stored there; for register 7 that is the decremented pointer (the spec's own decision D12, log entry
13). -/
def Obligations.PushStoresBelowStack : Prop :=
  ∀ (a : Byte) (ha : a.toNat < 8) (s : State), s.readReg 7 ≠ 0x00#8 →
    ∃ t, exec (.push a) s = .next t ∧
      t.readReg 7 = s.readReg 7 - 1#8 ∧
      t.memRead (s.readReg 7 - 1#8) = (if a = 7#8 then s.readReg 7 - 1#8 else s.readReg ⟨a.toNat, ha⟩) ∧
      t.pc = s.pc + 2#9 ∧ KeepsRegs s t [7] ∧ KeepsMemExcept s t (s.readReg 7 - 1#8) ∧
      KeepsFlagsOut s t ∧ KeepsStatus s t

/-- POP with the stack pointer below 0xFF, and for POP R7 a popped byte below 0xFF: the register gets the byte at the
pointer and the pointer moves up by one; POP R7 ends with the popped byte plus 1 (the spec's own decision D12, log entry
13). A pop with nothing pushed is not an error (D11, log entry 12). -/
def Obligations.PopLoadsTopOfStack : Prop :=
  ∀ (a : Byte) (ha : a.toNat < 8) (s : State), s.readReg 7 ≠ 0xFF#8 →
    (a = 7#8 → s.memRead (s.readReg 7) ≠ 0xFF#8) →
    ∃ t, exec (.pop a) s = .next t ∧
      (a ≠ 7#8 → t.readReg ⟨a.toNat, ha⟩ = s.memRead (s.readReg 7) ∧ t.readReg 7 = s.readReg 7 + 1#8) ∧
      (a = 7#8 → t.readReg 7 = s.memRead (s.readReg 7) + 1#8) ∧
      t.pc = s.pc + 2#9 ∧ KeepsRegs s t [⟨a.toNat, ha⟩, 7] ∧ KeepsMem s t ∧
      KeepsFlagsOut s t ∧ KeepsStatus s t

/-- CALL where the return address fits and the stack pointer is above 0x00: the address of the next instruction is
pushed and the program counter is the register's value, read after the push; for register 7 that is the decremented
pointer (the spec's own decision D12, log entry 13). -/
def Obligations.CallPushesReturnAddress : Prop :=
  ∀ (a : Byte) (ha : a.toNat < 8) (s : State), s.pc.toNat + 2 ≤ 255 → s.readReg 7 ≠ 0x00#8 →
    ∃ t, exec (.call a) s = .next t ∧
      t.readReg 7 = s.readReg 7 - 1#8 ∧
      (t.memRead (s.readReg 7 - 1#8)).toNat = s.pc.toNat + 2 ∧
      t.pc = (if a = 7#8 then s.readReg 7 - 1#8 else s.readReg ⟨a.toNat, ha⟩).setWidth 9 ∧
      KeepsRegs s t [7] ∧ KeepsMemExcept s t (s.readReg 7 - 1#8) ∧ KeepsFlagsOut s t ∧ KeepsStatus s t

/-- RET with the stack pointer below 0xFF (the spec's own decision D11, log entry 12): the byte at the pointer becomes
the program counter, so the target is always a fetch address, and the pointer moves up by one. -/
def Obligations.ReturnPopsProgramCounter : Prop :=
  ∀ s : State, s.readReg 7 ≠ 0xFF#8 →
    ∃ t, exec .ret s = .next t ∧
      t.pc = (s.memRead (s.readReg 7)).setWidth 9 ∧ t.pc.toNat ≤ 255 ∧
      t.readReg 7 = s.readReg 7 + 1#8 ∧ KeepsRegs s t [7] ∧ KeepsMem s t ∧
      KeepsFlagsOut s t ∧ KeepsStatus s t

/-- JMP: the program counter is the register's value, zero-extended, always. -/
def Obligations.JumpGoesToRegister : Prop := JumpResult .jmp 0x54#8 (fun _ => true)

/-- JEQ jumps exactly if the Equal flag is set, JNE exactly if it is clear; otherwise they go on after their two
bytes. -/
def Obligations.ConditionalJumpsFollowEqual : Prop :=
  JumpResult .jeq 0x55#8 (fun s => s.flags.e) ∧ JumpResult .jne 0x56#8 (fun s => !s.flags.e)

/-- LDI: the register gets the second operand byte, whatever it is; `LDI R7,v` sets the stack pointer unchecked. -/
def Obligations.LoadImmediateResult : Prop :=
  ∀ (a b : Byte) (ha : a.toNat < 8) (s : State),
    encode (.ldi a b) = [0x82#8, a, b] ∧
    ∃ t, exec (.ldi a b) s = .next t ∧
      t.readReg ⟨a.toNat, ha⟩ = b ∧ t.pc = s.pc + 3#9 ∧ KeepsRegs s t [⟨a.toNat, ha⟩] ∧
      KeepsMem s t ∧ KeepsFlagsOut s t ∧ KeepsStatus s t

/-- PRN: the register's value is appended to the output, unconditionally, and its text is its decimal numeral. -/
def Obligations.PrintAppendsRegister : Prop :=
  ∀ (a : Byte) (ha : a.toNat < 8) (s : State),
    encode (.prn a) = [0x47#8, a] ∧
    ∃ t, exec (.prn a) s = .next t ∧
      t.out = s.out ++ [s.readReg ⟨a.toNat, ha⟩] ∧
      t.out.map decimalText = s.out.map decimalText ++ [toString (s.readReg ⟨a.toNat, ha⟩).toNat] ∧
      t.pc = s.pc + 2#9 ∧ KeepsRegs s t [] ∧ KeepsMem s t ∧ t.flags = s.flags ∧ KeepsStatus s t

/-- HLT: RUNNING is cleared, the engine is Halted, no record is written; that the program counter advances by 1 is the
spec's own decision D31 (log entry 16). -/
def Obligations.HaltStopsEngine : Prop :=
  ∀ s : State, exec .hlt s = .next { s with running := false, status := .halted, pc := s.pc + 1#9 }

/-! ### Frames, for every next state, an error's too -/

/-- The instructions that write one register (ADD, SUB, MUL, DIV, MOD, AND, OR, XOR, NOT, SHL, SHR, LDI) leave every
other register, all flags, all of memory and the output unchanged. -/
def Obligations.RegisterWriteFrame : Prop :=
  ∀ (a b : Byte) (s t : State),
    ∀ i ∈ [Instr.add a b, .sub a b, .mul a b, .div a b, .mod a b, .and a b, .or a b, .xor a b, .shl a b, .shr a b,
           .not a, .ldi a b],
      exec i s = .next t →
        (∀ r : RegIndex, r.val ≠ a.toNat → t.readReg r = s.readReg r) ∧ KeepsMem s t ∧ KeepsFlagsOut s t

/-- The instructions that write no register and no memory (CMP, PRN, JMP, JEQ, JNE, HLT) leave all registers and all
of memory unchanged; all but CMP leave the flags, and all but PRN the output. -/
def Obligations.NoRegisterWriteFrame : Prop :=
  ∀ (a b : Byte) (s t : State),
    ∀ i ∈ [Instr.cmp a b, .prn a, .jmp a, .jeq a, .jne a, .hlt],
      exec i s = .next t →
        KeepsRegs s t [] ∧ KeepsMem s t ∧ (i ≠ .cmp a b → t.flags = s.flags) ∧ (i ≠ .prn a → t.out = s.out)

/-- PUSH and CALL write register 7 and the one cell below the stack pointer, POP writes its register and register 7,
RET writes register 7; every other register and cell, the flags and the output are unchanged. -/
def Obligations.StackInstructionFrame : Prop :=
  ∀ (a : Byte) (s t : State),
    (∀ i ∈ [Instr.push a, .call a], exec i s = .next t →
      KeepsRegs s t [7] ∧ KeepsMemExcept s t (s.sp - 1#8) ∧ KeepsFlagsOut s t) ∧
    (exec (.pop a) s = .next t →
      (∀ r : RegIndex, r.val ≠ a.toNat → r ≠ 7 → t.readReg r = s.readReg r) ∧ KeepsMem s t ∧ KeepsFlagsOut s t) ∧
    (exec .ret s = .next t → KeepsRegs s t [7] ∧ KeepsMem s t ∧ KeepsFlagsOut s t)

/-! ### Rules of the whole machine -/

/-- CMP alone writes the flags; JEQ and JNE alone read a flag, and they read Equal alone: changing G and L of the start
state changes nothing of any instruction's next state but G and L themselves (and nothing at all of CMP's, whose own
flags replace them), and changing all three flags changes nothing else of an instruction that is neither JEQ nor
JNE. -/
def Obligations.FlagsWrittenByCompareReadByJumps : Prop :=
  (∀ (i : Instr) (s t : State), exec i s = .next t → (∀ a b, i ≠ .cmp a b) → t.flags = s.flags) ∧
  (∀ (i : Instr) (s t : State) (f : Flags), exec i s = .next t →
    (f.e = s.flags.e ∨ ∀ a, i ≠ .jeq a ∧ i ≠ .jne a) →
    ∃ g, exec i { s with flags := f } = .next { t with flags := g } ∧
      (g = f ∨ ∃ a b, i = .cmp a b ∧ g = t.flags))

/-- Memory is written by PUSH and CALL alone, and they write at most the one cell below the stack pointer: a step that
changes memory ran one of the two. -/
def Obligations.MemoryWrittenByPushAndCallOnly : Prop :=
  ∀ s t : State, step s = .next t → t.mem ≠ s.mem →
    (∃ a rest, decode (fetchBytes s) = .ok (.push a, rest) ∨ decode (fetchBytes s) = .ok (.call a, rest)) ∧
    t.sp = s.sp - 1#8 ∧ KeepsMemExcept s t (s.sp - 1#8)

/-- The output is append-only: a step leaves it as it was, or ran PRN and appended that register's value. -/
def Obligations.OutputGrowsByPrintOnly : Prop :=
  ∀ s t : State, step s = .next t →
    t.out = s.out ∨
    ∃ a r rest, decode (fetchBytes s) = .ok (.prn a, rest) ∧ regOf a = some r ∧ t.out = s.out ++ [s.readReg r]

/-- The step answers a next state for every state. R111 says it is total; that the four fatal errors, which R13 and the
spec's decision D33 call faults, are next states with the record written, so that no state makes the step answer a fault,
is the model's own choice (log entry 7). -/
def Obligations.StepAlwaysAnswersNext : Prop := ∀ s : State, ∃ t, step s = .next t

/-- Halted is terminal: any number of steps leaves a Halted state, its error record included, exactly as it is. -/
def Obligations.HaltedIsTerminal : Prop :=
  ∀ (n : Nat) (s : State), s.status = .halted → Host.Core.run Sys2Proof.core n s = .next s

/-- The transitions of the engine, complete: from a state that is not Halted a step ends in Running, or, exactly if it
ran HLT or wrote an error record, in Halted; RUNNING follows. The spec's own decision D19 (log entry 8). The premise on
the invariant holds in every state of a run (`StepKeepsSoundState`). -/
def Obligations.StatusTransitions : Prop :=
  ∀ s t : State, s.Inv → s.status ≠ .halted → step s = .next t →
    (t.status = .running ∨ t.status = .halted) ∧ (t.running = true ↔ t.status = .running) ∧
    (t.status = .halted ↔ t.fault ≠ none ∨ ∃ rest, decode (fetchBytes s) = .ok (.hlt, rest))

/-- `step()` returns RUNNING after the step, which is false exactly if that state is Halted (the tie is the spec's own
decision D19, log entry 8; which steps end in Halted is said by `StatusTransitions` and `HaltedIsTerminal`). `run()`
repeats `step()` until it returns false: a run that ends within its fuel does so in state Halted, and more fuel does not
change its answer; one that has not ended after its fuel of at least one step is not Halted. The fuel is the model's own
(log entry 25, R112). The premise on the invariant holds in every state of a run (`StepKeepsSoundState`). -/
def Obligations.RunEndsExactlyWhenHalted : Prop :=
  ∀ s : State, s.Inv →
    (∃ t, step s = .next t ∧ hostStep s = (t, t.running) ∧ (t.running = false ↔ t.status = .halted)) ∧
    (∀ n t, run n s = some t → t.status = .halted ∧ Host.Core.run Sys2Proof.core n s = .next t ∧ ∀ m, n ≤ m → run m s = some t) ∧
    (∀ n, run n s = none → n ≠ 0 → ∃ t, Host.Core.run Sys2Proof.core n s = .next t ∧ t.status ≠ .halted)

/-! ### Reset, load and the invariant -/

/-- Every step keeps a sound state sound: canonical memory, a program counter of 0 to 256, RUNNING and STATE tied, at
most one flag, and an error record only in state Halted, legal, with the program counter in place. -/
def Obligations.StepKeepsSoundState : Prop := ∀ s t : State, s.Inv → step s = .next t → t.Inv

/-- The state after reset is sound. -/
def Obligations.ResetStateIsSound : Prop := State.reset.Inv

/-- After reset the program counter is 0 and the engine is in state Ready. -/
def Obligations.ResetStartsReadyAtZero : Prop := State.reset.pc = 0#9 ∧ State.reset.status = .ready

/-- The reset values of everything else. The zeros of registers 0 to 6 and of memory, and RUNNING and FAULT, are the
spec's own decisions D16, D17 and D19 (log entries 2, 3 and 8). -/
def Obligations.ResetValues : Prop :=
  State.reset.readReg 7 = 0xF4#8 ∧ (∀ r : RegIndex, r ≠ 7 → State.reset.readReg r = 0x00#8) ∧
  State.reset.flags = ⟨false, false, false⟩ ∧ State.reset.running = false ∧ State.reset.fault = none ∧
  State.reset.out = [] ∧ ∀ addr : Byte, State.reset.memRead addr = 0x00#8

/-- A load of at most 256 bytes puts the image at address 0 upward, fill after it, the program counter at the start
address, and everything else at its reset value, from any state, a Halted one too, and leaves a sound state; a longer
image changes nothing. The fill and the argument are the spec's own decisions D17 and D18 (log entries 3 and 17). -/
def Obligations.LoadPlacesImage : Prop :=
  ∀ (image : List Byte) (startPc : Byte) (s : State),
    (image.length ≤ 256 →
      (∀ addr : Byte, (load image startPc s).memRead addr = (image[addr.toNat]?).getD 0x00#8) ∧
      (load image startPc s).pc = startPc.setWidth 9 ∧
      (load image startPc s) = { State.reset with pc := startPc.setWidth 9, mem := (load image startPc s).mem } ∧
      (load image startPc s).Inv) ∧
    (256 < image.length → load image startPc s = s)

/-- The flags: none set at reset; exactly one after a CMP that completes; at most one kept by every step; and once
exactly one is set, so it stays: the state with no flag set never comes back. -/
def Obligations.FlagsAreMutuallyExclusive : Prop :=
  State.reset.flags = ⟨false, false, false⟩ ∧
  (∀ (a b : Byte) (s t : State), a.toNat < 8 → b.toNat < 8 → exec (.cmp a b) s = .next t → t.flags.ExactlyOne) ∧
  (∀ (i : Instr) (s t : State), exec i s = .next t → (∀ a b, i ≠ .cmp a b) → t.flags = s.flags) ∧
  (∀ s t : State, s.flags.AtMostOne → step s = .next t → t.flags.AtMostOne) ∧
  (∀ s t : State, s.flags.ExactlyOne → step s = .next t → t.flags.ExactlyOne)

/-! ### Properties over several instructions -/

/-- A write changes exactly the addressed cell and nothing else of the state, and a later read of that cell gives the
value written. -/
def Obligations.MemoryReadAfterWrite : Prop :=
  ∀ (s : State) (addr other v : Byte),
    (s.memWrite addr v).memRead other = (if other = addr then v else s.memRead other) ∧
    s.memWrite addr v = { s with mem := (s.memWrite addr v).mem }

/-- PUSH then POP into a register other than the stack pointer gives that register the pushed value, and the stack
pointer is back where it was. -/
def Obligations.PushThenPopRestores : Prop :=
  ∀ (a b : Byte) (ha : a.toNat < 8) (hb : b.toNat < 8) (s : State),
    a ≠ 7#8 → b ≠ 7#8 → s.readReg 7 ≠ 0x00#8 →
    ∃ t u, exec (.push a) s = .next t ∧ exec (.pop b) t = .next u ∧
      u.readReg ⟨b.toNat, hb⟩ = s.readReg ⟨a.toNat, ha⟩ ∧ u.readReg 7 = s.readReg 7

/-- CALL into a subroutine and RET resume at the instruction after the CALL: from any state with the stack pointer the
CALL left and the return address still in its cell, RET goes to the address after the CALL, puts the stack pointer back
where it was, and leaves every other register as the subroutine left it. -/
def Obligations.CallThenReturnResumes : Prop :=
  ∀ (a : Byte) (s t u : State), a.toNat < 8 → exec (.call a) s = .next t → t.fault = none →
    u.readReg 7 = t.readReg 7 → u.memRead (u.readReg 7) = t.memRead (t.readReg 7) →
    ∃ v, exec .ret u = .next v ∧ v.pc.toNat = s.pc.toNat + 2 ∧ v.readReg 7 = s.readReg 7 ∧ KeepsRegs u v [7]

/-- CMP then JEQ jumps exactly if the two registers are equal, CMP then JNE exactly if they differ, whatever the flags
were before. -/
def Obligations.CompareThenJump : Prop :=
  ∀ (a b c : Byte) (ha : a.toNat < 8) (hb : b.toNat < 8) (hc : c.toNat < 8) (s : State),
    ∃ t u v, exec (.cmp a b) s = .next t ∧ exec (.jeq c) t = .next u ∧ exec (.jne c) t = .next v ∧
      u.pc = (if s.readReg ⟨a.toNat, ha⟩ = s.readReg ⟨b.toNat, hb⟩
              then (s.readReg ⟨c.toNat, hc⟩).setWidth 9 else s.pc + 5#9) ∧
      v.pc = (if s.readReg ⟨a.toNat, ha⟩ = s.readReg ⟨b.toNat, hb⟩
              then s.pc + 5#9 else (s.readReg ⟨c.toNat, hc⟩).setWidth 9)

/-- LDI then PRN outputs the immediate. -/
def Obligations.LoadThenPrintOutputs : Prop :=
  ∀ (a v : Byte) (s : State), a.toNat < 8 →
    ∃ t u, exec (.ldi a v) s = .next t ∧ exec (.prn a) t = .next u ∧ u.out = s.out ++ [v]

/-- A pushed byte is what the very next fetch of its address sees, with nothing in between: self-modifying code through
the stack is well defined. The spec's own decision D24 (log entry 27). -/
def Obligations.PushedByteIsFetchedNext : Prop :=
  ∀ (a : Byte) (ha : a.toNat < 8) (s : State), a ≠ 7#8 → s.readReg 7 ≠ 0x00#8 →
    s.pc + 2#9 = (s.readReg 7 - 1#8).setWidth 9 →
    ∃ t, exec (.push a) s = .next t ∧ (fetchBytes t)[0]? = some (s.readReg ⟨a.toNat, ha⟩)

end
end

