-- ==== Sys2Proof/Laws/State.lean ====
section
/-! SUPPORT. What each state update leaves in each field, and what the accessors read after it: one lemma per field
per update, so that no later proof unfolds a record update. -/

namespace Sys2Proof.Machine

variable (s : State)

/-! ### writeReg -/

@[simp] theorem State.writeReg_regs (i : RegIndex) (v : Byte) : (s.writeReg i v).regs = s.regs.set i.val v := rfl
@[simp] theorem State.writeReg_pc (i : RegIndex) (v : Byte) : (s.writeReg i v).pc = s.pc := rfl
@[simp] theorem State.writeReg_flags (i : RegIndex) (v : Byte) : (s.writeReg i v).flags = s.flags := rfl
@[simp] theorem State.writeReg_running (i : RegIndex) (v : Byte) : (s.writeReg i v).running = s.running := rfl
@[simp] theorem State.writeReg_status (i : RegIndex) (v : Byte) : (s.writeReg i v).status = s.status := rfl
@[simp] theorem State.writeReg_fault (i : RegIndex) (v : Byte) : (s.writeReg i v).fault = s.fault := rfl
@[simp] theorem State.writeReg_mem (i : RegIndex) (v : Byte) : (s.writeReg i v).mem = s.mem := rfl
@[simp] theorem State.writeReg_out (i : RegIndex) (v : Byte) : (s.writeReg i v).out = s.out := rfl
@[simp] theorem State.writeReg_memRead (i : RegIndex) (v : Byte) (x : Byte) : (s.writeReg i v).memRead x = s.memRead x := rfl

/-! ### setSp -/

@[simp] theorem State.setSp_regs (v : Byte) : (s.setSp v).regs = s.regs.set 7 v := rfl
@[simp] theorem State.setSp_pc (v : Byte) : (s.setSp v).pc = s.pc := rfl
@[simp] theorem State.setSp_flags (v : Byte) : (s.setSp v).flags = s.flags := rfl
@[simp] theorem State.setSp_running (v : Byte) : (s.setSp v).running = s.running := rfl
@[simp] theorem State.setSp_status (v : Byte) : (s.setSp v).status = s.status := rfl
@[simp] theorem State.setSp_fault (v : Byte) : (s.setSp v).fault = s.fault := rfl
@[simp] theorem State.setSp_mem (v : Byte) : (s.setSp v).mem = s.mem := rfl
@[simp] theorem State.setSp_out (v : Byte) : (s.setSp v).out = s.out := rfl
@[simp] theorem State.setSp_memRead (v : Byte) (x : Byte) : (s.setSp v).memRead x = s.memRead x := rfl

/-! ### memWrite -/

@[simp] theorem State.memWrite_regs (addr v : Byte) : (s.memWrite addr v).regs = s.regs := rfl
@[simp] theorem State.memWrite_pc (addr v : Byte) : (s.memWrite addr v).pc = s.pc := rfl
@[simp] theorem State.memWrite_flags (addr v : Byte) : (s.memWrite addr v).flags = s.flags := rfl
@[simp] theorem State.memWrite_running (addr v : Byte) : (s.memWrite addr v).running = s.running := rfl
@[simp] theorem State.memWrite_status (addr v : Byte) : (s.memWrite addr v).status = s.status := rfl
@[simp] theorem State.memWrite_fault (addr v : Byte) : (s.memWrite addr v).fault = s.fault := rfl
@[simp] theorem State.memWrite_mem (addr v : Byte) : (s.memWrite addr v).mem = Memory.write s.mem addr.toNat v := rfl
@[simp] theorem State.memWrite_out (addr v : Byte) : (s.memWrite addr v).out = s.out := rfl
@[simp] theorem State.memWrite_readReg (addr v : Byte) (r : RegIndex) : (s.memWrite addr v).readReg r = s.readReg r := rfl
@[simp] theorem State.memWrite_sp (addr v : Byte) : (s.memWrite addr v).sp = s.sp := rfl

/-! ### setFlags -/

@[simp] theorem State.setFlags_regs (f : Flags) : (s.setFlags f).regs = s.regs := rfl
@[simp] theorem State.setFlags_pc (f : Flags) : (s.setFlags f).pc = s.pc := rfl
@[simp] theorem State.setFlags_flags (f : Flags) : (s.setFlags f).flags = f := rfl
@[simp] theorem State.setFlags_running (f : Flags) : (s.setFlags f).running = s.running := rfl
@[simp] theorem State.setFlags_status (f : Flags) : (s.setFlags f).status = s.status := rfl
@[simp] theorem State.setFlags_fault (f : Flags) : (s.setFlags f).fault = s.fault := rfl
@[simp] theorem State.setFlags_mem (f : Flags) : (s.setFlags f).mem = s.mem := rfl
@[simp] theorem State.setFlags_out (f : Flags) : (s.setFlags f).out = s.out := rfl
@[simp] theorem State.setFlags_memRead (f : Flags) (x : Byte) : (s.setFlags f).memRead x = s.memRead x := rfl
@[simp] theorem State.setFlags_readReg (f : Flags) (r : RegIndex) : (s.setFlags f).readReg r = s.readReg r := rfl
@[simp] theorem State.setFlags_sp (f : Flags) : (s.setFlags f).sp = s.sp := rfl

/-! ### output -/

@[simp] theorem State.output_regs (v : Byte) : (s.output v).regs = s.regs := rfl
@[simp] theorem State.output_pc (v : Byte) : (s.output v).pc = s.pc := rfl
@[simp] theorem State.output_flags (v : Byte) : (s.output v).flags = s.flags := rfl
@[simp] theorem State.output_running (v : Byte) : (s.output v).running = s.running := rfl
@[simp] theorem State.output_status (v : Byte) : (s.output v).status = s.status := rfl
@[simp] theorem State.output_fault (v : Byte) : (s.output v).fault = s.fault := rfl
@[simp] theorem State.output_mem (v : Byte) : (s.output v).mem = s.mem := rfl
@[simp] theorem State.output_out (v : Byte) : (s.output v).out = s.out ++ [v] := rfl
@[simp] theorem State.output_memRead (v : Byte) (x : Byte) : (s.output v).memRead x = s.memRead x := rfl
@[simp] theorem State.output_readReg (v : Byte) (r : RegIndex) : (s.output v).readReg r = s.readReg r := rfl
@[simp] theorem State.output_sp (v : Byte) : (s.output v).sp = s.sp := rfl

/-! ### setPc -/

@[simp] theorem State.setPc_regs (t : Word9) : (s.setPc t).regs = s.regs := rfl
@[simp] theorem State.setPc_pc (t : Word9) : (s.setPc t).pc = t := rfl
@[simp] theorem State.setPc_flags (t : Word9) : (s.setPc t).flags = s.flags := rfl
@[simp] theorem State.setPc_running (t : Word9) : (s.setPc t).running = s.running := rfl
@[simp] theorem State.setPc_status (t : Word9) : (s.setPc t).status = s.status := rfl
@[simp] theorem State.setPc_fault (t : Word9) : (s.setPc t).fault = s.fault := rfl
@[simp] theorem State.setPc_mem (t : Word9) : (s.setPc t).mem = s.mem := rfl
@[simp] theorem State.setPc_out (t : Word9) : (s.setPc t).out = s.out := rfl
@[simp] theorem State.setPc_memRead (t : Word9) (x : Byte) : (s.setPc t).memRead x = s.memRead x := rfl
@[simp] theorem State.setPc_readReg (t : Word9) (r : RegIndex) : (s.setPc t).readReg r = s.readReg r := rfl
@[simp] theorem State.setPc_sp (t : Word9) : (s.setPc t).sp = s.sp := rfl

/-! ### advance -/

@[simp] theorem State.advance_regs (n : Nat) : (s.advance n).regs = s.regs := rfl
@[simp] theorem State.advance_pc (n : Nat) : (s.advance n).pc = s.pc + BitVec.ofNat 9 n := rfl
@[simp] theorem State.advance_flags (n : Nat) : (s.advance n).flags = s.flags := rfl
@[simp] theorem State.advance_running (n : Nat) : (s.advance n).running = s.running := rfl
@[simp] theorem State.advance_status (n : Nat) : (s.advance n).status = s.status := rfl
@[simp] theorem State.advance_fault (n : Nat) : (s.advance n).fault = s.fault := rfl
@[simp] theorem State.advance_mem (n : Nat) : (s.advance n).mem = s.mem := rfl
@[simp] theorem State.advance_out (n : Nat) : (s.advance n).out = s.out := rfl
@[simp] theorem State.advance_memRead (n : Nat) (x : Byte) : (s.advance n).memRead x = s.memRead x := rfl
@[simp] theorem State.advance_readReg (n : Nat) (r : RegIndex) : (s.advance n).readReg r = s.readReg r := rfl
@[simp] theorem State.advance_sp (n : Nat) : (s.advance n).sp = s.sp := rfl

/-! ### halt -/

@[simp] theorem State.halt_regs : (s.halt).regs = s.regs := rfl
@[simp] theorem State.halt_pc : (s.halt).pc = s.pc := rfl
@[simp] theorem State.halt_flags : (s.halt).flags = s.flags := rfl
@[simp] theorem State.halt_running : (s.halt).running = false := rfl
@[simp] theorem State.halt_status : (s.halt).status = .halted := rfl
@[simp] theorem State.halt_fault : (s.halt).fault = s.fault := rfl
@[simp] theorem State.halt_mem : (s.halt).mem = s.mem := rfl
@[simp] theorem State.halt_out : (s.halt).out = s.out := rfl
@[simp] theorem State.halt_memRead (x : Byte) : (s.halt).memRead x = s.memRead x := rfl
@[simp] theorem State.halt_readReg (r : RegIndex) : (s.halt).readReg r = s.readReg r := rfl
@[simp] theorem State.halt_sp : (s.halt).sp = s.sp := rfl

/-! ### raised -/

@[simp] theorem State.raised_regs (k : ErrorKind) (info : Word9) : (s.raised k info).regs = s.regs := rfl
@[simp] theorem State.raised_pc (k : ErrorKind) (info : Word9) : (s.raised k info).pc = s.pc := rfl
@[simp] theorem State.raised_flags (k : ErrorKind) (info : Word9) : (s.raised k info).flags = s.flags := rfl
@[simp] theorem State.raised_running (k : ErrorKind) (info : Word9) : (s.raised k info).running = false := rfl
@[simp] theorem State.raised_status (k : ErrorKind) (info : Word9) : (s.raised k info).status = .halted := rfl
@[simp] theorem State.raised_fault (k : ErrorKind) (info : Word9) : (s.raised k info).fault = some ⟨k, s.pc, info⟩ := rfl
@[simp] theorem State.raised_mem (k : ErrorKind) (info : Word9) : (s.raised k info).mem = s.mem := rfl
@[simp] theorem State.raised_out (k : ErrorKind) (info : Word9) : (s.raised k info).out = s.out := rfl
@[simp] theorem State.raised_memRead (k : ErrorKind) (info : Word9) (x : Byte) : (s.raised k info).memRead x = s.memRead x := rfl
@[simp] theorem State.raised_readReg (k : ErrorKind) (info : Word9) (r : RegIndex) : (s.raised k info).readReg r = s.readReg r := rfl
@[simp] theorem State.raised_sp (k : ErrorKind) (info : Word9) : (s.raised k info).sp = s.sp := rfl

/-! ### start -/

@[simp] theorem State.start_regs : s.start.regs = s.regs := by
  unfold State.start; split <;> rfl
@[simp] theorem State.start_pc : s.start.pc = s.pc := by
  unfold State.start; split <;> rfl
@[simp] theorem State.start_flags : s.start.flags = s.flags := by
  unfold State.start; split <;> rfl
@[simp] theorem State.start_fault : s.start.fault = s.fault := by
  unfold State.start; split <;> rfl
@[simp] theorem State.start_mem : s.start.mem = s.mem := by
  unfold State.start; split <;> rfl
@[simp] theorem State.start_out : s.start.out = s.out := by
  unfold State.start; split <;> rfl
@[simp] theorem State.start_memRead (x : Byte) : s.start.memRead x = s.memRead x := by
  unfold State.start; split <;> rfl
@[simp] theorem State.start_readReg (r : RegIndex) : s.start.readReg r = s.readReg r := by
  unfold State.start; split <;> rfl
@[simp] theorem State.start_sp : s.start.sp = s.sp := by
  unfold State.start; split <;> rfl

/-- Starting an engine that is not Halted leaves it Running. -/
theorem State.start_status (h : s.status ≠ .halted) : s.start.status = .running := by
  unfold State.start; split <;> simp_all

/-- Starting an engine whose RUNNING and STATE are tied leaves RUNNING set. -/
theorem State.start_running (h : s.status ≠ .halted) (hr : s.running = true ↔ s.status = .running) :
    s.start.running = true := by
  unfold State.start; split <;> simp_all

/-- The start of a state is the state with Ready made Running. -/
theorem State.start_eq :
    s.start = if s.status = .ready then { s with status := .running, running := true } else s := by
  unfold State.start; split <;> simp_all

/-! ### The registers -/

theorem State.readReg_writeReg (i r : RegIndex) (v : Byte) :
    (s.writeReg i v).readReg r = if r = i then v else s.readReg r := by
  simp only [State.readReg, State.writeReg, Vector.getElem_set, Fin.ext_iff, eq_comm]

@[simp] theorem State.readReg_writeReg_same (i : RegIndex) (v : Byte) : (s.writeReg i v).readReg i = v := by
  simp [State.readReg_writeReg]

theorem State.readReg_writeReg_other (i r : RegIndex) (v : Byte) (h : r ≠ i) :
    (s.writeReg i v).readReg r = s.readReg r := by
  simp [State.readReg_writeReg, h]

theorem State.readReg_setSp (r : RegIndex) (v : Byte) :
    (s.setSp v).readReg r = if r = 7 then v else s.readReg r :=
  s.readReg_writeReg Config.spIndex r v

@[simp] theorem State.sp_setSp (v : Byte) : (s.setSp v).sp = v := s.readReg_writeReg_same _ v

theorem State.sp_writeReg (i : RegIndex) (v : Byte) : (s.writeReg i v).sp = if 7 = i then v else s.sp :=
  s.readReg_writeReg i 7 v

theorem State.sp_eq : s.sp = s.readReg 7 := rfl

/-! ### The error entry -/

/-- A fatal error writes its record, stops the engine and changes nothing else. -/
theorem State.raised_eq (k : ErrorKind) (info : Word9) :
    s.raised k info = { s with fault := some ⟨k, s.pc, info⟩, running := false, status := .halted } := rfl

/-- An error raised after the start transition is the error raised without it. -/
theorem State.start_raised (k : ErrorKind) (info : Word9) : s.start.raised k info = s.raised k info := by
  simp only [State.raised_eq, State.start_pc]
  unfold State.start; split <;> rfl

end Sys2Proof.Machine
end

