-- ==== Sys2Proof/Laws/Memory.lean ====
section
/-! SUPPORT. The laws of memory: a read after a write, the canonical form, which every memory operation keeps, and that
memories in canonical form that read alike are equal. -/

namespace Sys2Proof.Machine

@[simp] theorem Memory.read_nil (x : Nat) : Memory.read [] x = Config.memFill := rfl

/-! ### A read after a write, for every memory, canonical or not -/

theorem Memory.read_erase (m : Memory) (addr x : Nat) :
    Memory.read (Memory.erase m addr) x = if x = addr then Config.memFill else Memory.read m x := by
  induction m with
  | nil => simp [Memory.erase]
  | cons cell rest ih =>
    obtain ⟨a, w⟩ := cell
    simp only [Memory.erase, List.filter_cons] at ih ⊢
    by_cases ha : a = addr
    · subst ha
      simp only [bne_self_eq_false, Bool.false_eq_true, if_false, ih, Memory.read]
      by_cases hx : x = a <;> simp [hx, eq_comm]
    · simp only [bne_iff_ne, ne_eq, ha, not_false_eq_true, if_true, Memory.read, ih]
      by_cases hx : a = x
      · subst hx; simp [ha]
      · simp [hx]

theorem Memory.read_insert (m : Memory) (addr x : Nat) (v : Byte) (h : Memory.read m addr = Config.memFill)
    (hm : ∀ cell ∈ m, cell.1 ≠ addr) :
    Memory.read (Memory.insert m addr v) x = if x = addr then v else Memory.read m x := by
  induction m with
  | nil => simp [Memory.insert, Memory.read, eq_comm]
  | cons cell rest ih =>
    obtain ⟨a, w⟩ := cell
    have ha : a ≠ addr := hm (a, w) (by simp)
    have ih := ih (by simpa [Memory.read, ha] using h) (fun c hc => hm c (by simp [hc]))
    unfold Memory.insert
    split
    · simp only [Memory.read]
      by_cases hx : x = addr
      · simp [hx]
      · simp [hx, Ne.symm hx]
    · simp only [Memory.read, ih]
      by_cases hx : a = x
      · subst hx; simp [ha]
      · simp [hx]

theorem Memory.read_write (m : Memory) (addr x : Nat) (v : Byte) :
    Memory.read (Memory.write m addr v) x = if x = addr then v else Memory.read m x := by
  unfold Memory.write
  split
  · rename_i hv; rw [Memory.read_erase, hv]
  · rw [Memory.read_insert _ _ _ _ (by simp [Memory.read_erase]) (by simp [Memory.erase]), Memory.read_erase]
    split <;> rfl

@[simp] theorem Memory.read_write_same (m : Memory) (addr : Nat) (v : Byte) :
    Memory.read (Memory.write m addr v) addr = v := by simp [Memory.read_write]

theorem State.memRead_memWrite (s : State) (addr x v : Byte) :
    (s.memWrite addr v).memRead x = if x = addr then v else s.memRead x := by
  simp [State.memRead, Memory.read_write, BitVec.toNat_inj]

@[simp] theorem State.memRead_memWrite_same (s : State) (addr v : Byte) :
    (s.memWrite addr v).memRead addr = v := by simp [State.memRead_memWrite]

/-! ### The canonical form -/

theorem Memory.wfFrom_cons {lo a : Nat} {v : Byte} {m : Memory} :
    Memory.wfFrom lo ((a, v) :: m) = true ↔
      lo ≤ a ∧ a < Config.memSize ∧ v ≠ Config.memFill ∧ Memory.wfFrom (a + 1) m = true := by
  simp [Memory.wfFrom, and_assoc]

/-- A canonical memory is canonical from any smaller least address. -/
theorem Memory.wfFrom_mono {lo lo' : Nat} {m : Memory} (h : Memory.wfFrom lo m = true) (hl : lo' ≤ lo) :
    Memory.wfFrom lo' m = true := by
  cases m with
  | nil => rfl
  | cons cell rest => rw [Memory.wfFrom_cons] at h ⊢; exact ⟨by omega, h.2⟩

theorem Memory.wfFrom_erase {lo : Nat} {m : Memory} (h : Memory.wfFrom lo m = true) (addr : Nat) :
    Memory.wfFrom lo (Memory.erase m addr) = true := by
  induction m generalizing lo with
  | nil => rfl
  | cons cell rest ih =>
    obtain ⟨a, w⟩ := cell
    rw [Memory.wfFrom_cons] at h
    simp only [Memory.erase, List.filter_cons] at ih ⊢
    split
    · rw [Memory.wfFrom_cons]; exact ⟨h.1, h.2.1, h.2.2.1, ih h.2.2.2⟩
    · exact Memory.wfFrom_mono (ih h.2.2.2) (by omega)

theorem Memory.wfFrom_insert {lo addr : Nat} {v : Byte} {m : Memory} (hm : Memory.wfFrom lo m = true)
    (hne : ∀ cell ∈ m, cell.1 ≠ addr) (hv : v ≠ Config.memFill) (hl : lo ≤ addr) (ha : addr < Config.memSize) :
    Memory.wfFrom lo (Memory.insert m addr v) = true := by
  induction m generalizing lo with
  | nil => exact Memory.wfFrom_cons.2 ⟨hl, ha, hv, rfl⟩
  | cons cell rest ih =>
    obtain ⟨a, w⟩ := cell
    have hna : a ≠ addr := hne (a, w) (by simp)
    rw [Memory.wfFrom_cons] at hm
    unfold Memory.insert
    split
    · exact Memory.wfFrom_cons.2 ⟨hl, ha, hv, Memory.wfFrom_cons.2 ⟨by omega, hm.2⟩⟩
    · exact Memory.wfFrom_cons.2
        ⟨hm.1, hm.2.1, hm.2.2.1, ih hm.2.2.2 (fun c hc => hne c (by simp [hc])) (by omega)⟩

theorem Memory.wfFrom_write {lo addr : Nat} {v : Byte} {m : Memory} (hm : Memory.wfFrom lo m = true)
    (hl : lo ≤ addr) (ha : addr < Config.memSize) : Memory.wfFrom lo (Memory.write m addr v) = true := by
  unfold Memory.write
  split
  · exact Memory.wfFrom_erase hm addr
  · exact Memory.wfFrom_insert (Memory.wfFrom_erase hm addr) (by simp [Memory.erase]) (by assumption) hl ha

/-- A write to an existing address keeps the canonical form. -/
theorem Memory.wf_write {addr : Nat} {v : Byte} {m : Memory} (hm : Memory.wf m = true)
    (ha : addr < Config.memSize) : Memory.wf (Memory.write m addr v) = true :=
  Memory.wfFrom_write hm (Nat.zero_le _) ha

theorem State.wf_memWrite {s : State} (h : Memory.wf s.mem = true) (addr v : Byte) :
    Memory.wf (s.memWrite addr v).mem = true :=
  Memory.wf_write h addr.isLt

/-- A memory made of at most 256 bytes is canonical. -/
theorem Memory.wfFrom_ofBytes (bytes : List Byte) (addr : Nat) (h : addr + bytes.length ≤ Config.memSize) :
    Memory.wfFrom addr (Memory.ofBytes addr bytes) = true := by
  induction bytes generalizing addr with
  | nil => rfl
  | cons v rest ih =>
    simp only [List.length_cons] at h
    exact Memory.wfFrom_write (Memory.wfFrom_mono (ih (addr + 1) (by omega)) (by omega)) (Nat.le_refl _) (by omega)

theorem Memory.wf_ofBytes (bytes : List Byte) (h : bytes.length ≤ Config.memSize) :
    Memory.wf (Memory.ofBytes 0 bytes) = true :=
  Memory.wfFrom_ofBytes bytes 0 (by omega)

theorem Memory.read_ofBytes (bytes : List Byte) (addr x : Nat) :
    Memory.read (Memory.ofBytes addr bytes) x =
      if addr ≤ x then (bytes[x - addr]?).getD Config.memFill else Config.memFill := by
  induction bytes generalizing addr with
  | nil => simp [Memory.ofBytes]
  | cons v rest ih =>
    simp only [Memory.ofBytes, Memory.read_write, ih]
    by_cases hx : x = addr
    · simp [hx]
    · by_cases hl : addr ≤ x
      · have : x - addr = (x - (addr + 1)) + 1 := by omega
        simp [hx, hl, show addr + 1 ≤ x by omega, this]
      · simp [hx, hl, show ¬ addr + 1 ≤ x by omega]

/-- From `lo` on, a canonical memory lists nothing below `lo`. -/
theorem Memory.read_below {lo x : Nat} {m : Memory} (h : Memory.wfFrom lo m = true) (hx : x < lo) :
    Memory.read m x = Config.memFill := by
  induction m generalizing lo with
  | nil => rfl
  | cons cell rest ih =>
    obtain ⟨a, v⟩ := cell
    rw [Memory.wfFrom_cons] at h
    simp only [Memory.read, if_neg (show ¬ a = x by omega)]
    exact ih h.2.2.2 (by omega)

/-- Two canonical memories that read alike everywhere are the same data. -/
theorem Memory.ext_of_wfFrom {lo : Nat} {m n : Memory} (hm : Memory.wfFrom lo m = true)
    (hn : Memory.wfFrom lo n = true) (h : ∀ x, Memory.read m x = Memory.read n x) : m = n := by
  induction m generalizing lo n with
  | nil =>
    cases n with
    | nil => rfl
    | cons cell rest =>
      obtain ⟨a, v⟩ := cell
      rw [Memory.wfFrom_cons] at hn
      have := h a
      simp only [Memory.read, if_true] at this
      exact absurd this.symm hn.2.2.1
  | cons cell rest ih =>
    obtain ⟨a, v⟩ := cell
    have hm' := Memory.wfFrom_cons.1 hm
    cases n with
    | nil =>
      have := h a
      simp only [Memory.read, if_true] at this
      exact absurd this hm'.2.2.1
    | cons cell' rest' =>
      obtain ⟨b, w⟩ := cell'
      have hn' := Memory.wfFrom_cons.1 hn
      have hab : a = b := by
        rcases Nat.lt_trichotomy a b with hlt | heq | hlt
        · have := h a
          simp only [Memory.read, if_true, if_neg (show ¬ b = a by omega)] at this
          rw [Memory.read_below hn'.2.2.2 (by omega)] at this
          exact absurd this hm'.2.2.1
        · exact heq
        · have := h b
          simp only [Memory.read, if_true, if_neg (show ¬ a = b by omega)] at this
          rw [Memory.read_below hm'.2.2.2 (by omega)] at this
          exact absurd this.symm hn'.2.2.1
      subst hab
      have hvw : v = w := by simpa [Memory.read] using h a
      subst hvw
      rw [ih hm'.2.2.2 hn'.2.2.2 fun x => ?_]
      have := h x
      simp only [Memory.read] at this
      split at this
      · rename_i hx
        subst hx
        rw [Memory.read_below hm'.2.2.2 (by omega), Memory.read_below hn'.2.2.2 (by omega)]
      · exact this

theorem Memory.ext_of_wf {m n : Memory} (hm : Memory.wf m = true) (hn : Memory.wf n = true)
    (h : ∀ x, Memory.read m x = Memory.read n x) : m = n :=
  Memory.ext_of_wfFrom hm hn h

end Sys2Proof.Machine
end

