-- ==== Sys2Proof/Laws/Ops.lean ====
section
/-! SUPPORT. What each shared operation of the meanings can do, once: the operand forms, the stack-pointer sequencer,
the ALU's write-back and the error entry. -/

namespace Sys2Proof.Machine

/-! ### The error entry -/

theorem raise_eq (k : ErrorKind) (info : Word9) (s : State) : raise k info s = .next (s.raised k info) := rfl

theorem raise_next {k : ErrorKind} {info : Word9} {s t : State} (h : raise k info s = .next t) :
    t = s.raised k info := by
  injection h with h; exact h.symm

/-! ### Register operands -/

theorem regOf_of_lt {v : Byte} (h : v.toNat < 8) : regOf v = some ⟨v.toNat, h⟩ := dif_pos h

theorem regOf_of_le {v : Byte} (h : 8 ≤ v.toNat) : regOf v = none := dif_neg (by omega)

theorem regOf_eq_some {v : Byte} {r : RegIndex} : regOf v = some r ↔ v.toNat = r.val := by
  unfold regOf
  split
  · simp [Fin.ext_iff]
  · have := r.isLt
    simp; omega

theorem withReg_of_lt {v : Byte} (h : v.toNat < 8) (s : State) (body : RegIndex → Result) :
    withReg v s body = body ⟨v.toNat, h⟩ := by
  simp [withReg, regOf_of_lt h]

theorem withReg_of_le {v : Byte} (h : 8 ≤ v.toNat) (s : State) (body : RegIndex → Result) :
    withReg v s body = .next (s.raised .outOfBounds (zext9 v)) := by
  simp [withReg, regOf_of_le h, raise_eq]

/-- Everything the register check can do: go on with the register, or raise. -/
theorem withReg_next {v : Byte} {s t : State} {body : RegIndex → Result} (h : withReg v s body = .next t) :
    (∃ r, regOf v = some r ∧ body r = .next t) ∨ (8 ≤ v.toNat ∧ t = s.raised .outOfBounds (zext9 v)) := by
  by_cases hv : v.toNat < 8
  · rw [withReg_of_lt hv] at h; exact .inl ⟨_, regOf_of_lt hv, h⟩
  · rw [withReg_of_le (by omega)] at h; injection h with h; exact .inr ⟨by omega, h.symm⟩

theorem withRegs_of_lt {a b : Byte} (ha : a.toNat < 8) (hb : b.toNat < 8) (s : State)
    (body : RegIndex → RegIndex → Result) : withRegs a b s body = body ⟨a.toNat, ha⟩ ⟨b.toNat, hb⟩ := by
  simp [withRegs, withReg_of_lt ha, withReg_of_lt hb]

/-- Everything the check of two register operands can do. -/
theorem withRegs_next {a b : Byte} {s t : State} {body : RegIndex → RegIndex → Result}
    (h : withRegs a b s body = .next t) :
    (∃ ra rb, regOf a = some ra ∧ regOf b = some rb ∧ body ra rb = .next t) ∨
    (8 ≤ a.toNat ∧ t = s.raised .outOfBounds (zext9 a)) ∨
    (a.toNat < 8 ∧ 8 ≤ b.toNat ∧ t = s.raised .outOfBounds (zext9 b)) := by
  rcases withReg_next h with ⟨ra, ha, h⟩ | h
  · rcases withReg_next h with ⟨rb, hb, h⟩ | ⟨hb, h⟩
    · exact .inl ⟨ra, rb, ha, hb, h⟩
    · exact .inr (.inr ⟨by have := regOf_eq_some.1 ha; omega, hb, h⟩)
  · exact .inr (.inl h)

/-! ### The stack-pointer sequencer -/

theorem withPushSlot_zero {s : State} (h : s.sp = 0x00#8) (body : State → Result) :
    withPushSlot s body = .next (s.raised .stackFault 0x000#9) := by
  simp [withPushSlot, h, raise_eq, zext9]

theorem withPushSlot_pos {s : State} (h : s.sp ≠ 0x00#8) (body : State → Result) :
    withPushSlot s body = body (s.setSp (s.sp - 1#8)) := by
  simp [withPushSlot, h]

theorem withPopped_top {s : State} (h : s.sp = 0xFF#8) (body : Byte → Result) :
    withPopped s body = .next (s.raised .stackFault 0x0FF#9) := by
  simp [withPopped, h, raise_eq, zext9]

theorem withPopped_below {s : State} (h : s.sp ≠ 0xFF#8) (body : Byte → Result) :
    withPopped s body = body (s.memRead s.sp) := by
  simp [withPopped, h]

/-- Everything the push side of the sequencer can do. -/
theorem withPushSlot_next {s t : State} {body : State → Result} (h : withPushSlot s body = .next t) :
    (s.sp ≠ 0x00#8 ∧ body (s.setSp (s.sp - 1#8)) = .next t) ∨
    (s.sp = 0x00#8 ∧ t = s.raised .stackFault 0x000#9) := by
  by_cases hs : s.sp = 0x00#8
  · rw [withPushSlot_zero hs] at h; injection h with h; exact .inr ⟨hs, h.symm⟩
  · rw [withPushSlot_pos hs] at h; exact .inl ⟨hs, h⟩

/-- Everything the pop side of the sequencer can do. -/
theorem withPopped_next {s t : State} {body : Byte → Result} (h : withPopped s body = .next t) :
    (s.sp ≠ 0xFF#8 ∧ body (s.memRead s.sp) = .next t) ∨
    (s.sp = 0xFF#8 ∧ t = s.raised .stackFault 0x0FF#9) := by
  by_cases hs : s.sp = 0xFF#8
  · rw [withPopped_top hs] at h; injection h with h; exact .inr ⟨hs, h.symm⟩
  · rw [withPopped_below hs] at h; exact .inl ⟨hs, h⟩

/-! ### The ALU -/

/-- Everything the write-back of an ALU answer can do. -/
theorem aluWriteBack_next {ra rb : RegIndex} {len : Nat} {s t : State} {out : AluOut}
    (h : aluWriteBack ra rb len s out = .next t) :
    (∃ v, out = .result v ∧ t = (s.writeReg ra v).advance len) ∨
    (∃ f, out = .flags f ∧ t = (s.setFlags f).advance len) ∨
    (out = .divisionByZero ∧ t = s.raised .divisionByZero (BitVec.ofNat 9 rb.val)) := by
  cases out with
  | result v => injection h with h; exact .inl ⟨v, rfl, h.symm⟩
  | flags f => injection h with h; exact .inr (.inl ⟨f, rfl, h.symm⟩)
  | divisionByZero => injection h with h; exact .inr (.inr ⟨rfl, h.symm⟩)

/-- The write-back of a result. -/
theorem aluWriteBack_result (ra rb : RegIndex) (len : Nat) (s : State) (v : Byte) :
    aluWriteBack ra rb len s (.result v) = .next ((s.writeReg ra v).advance len) := rfl

@[simp] theorem wrap8_toNat (n : Nat) : (wrap8 n).toNat = n % 256 := rfl

/-- Every tag but CMP answers a result or a division by zero, and CMP a flag triple. -/
theorem alu_cases (op : AluOp) (va vb : Byte) :
    (op = .cmp ∧ alu op va vb = .flags (compareFlags va vb)) ∨
    (op ≠ .cmp ∧ ∃ v, alu op va vb = .result v) ∨
    ((op = .div ∨ op = .mod) ∧ vb = 0#8 ∧ alu op va vb = .divisionByZero) := by
  cases op
  case div => by_cases h : vb = 0#8 <;> simp [alu, h]
  case mod => by_cases h : vb = 0#8 <;> simp [alu, h]
  all_goals simp [alu]

/-- The flags of a comparison: exactly one. -/
theorem compareFlags_cases (va vb : Byte) :
    (va.toNat = vb.toNat ∧ compareFlags va vb = ⟨true, false, false⟩) ∨
    (va.toNat > vb.toNat ∧ compareFlags va vb = ⟨false, true, false⟩) ∨
    (va.toNat < vb.toNat ∧ compareFlags va vb = ⟨false, false, true⟩) := by
  unfold compareFlags
  by_cases h : va = vb
  · simp [h]
  · have hne : va.toNat ≠ vb.toNat := fun e => h (BitVec.eq_of_toNat_eq e)
    by_cases hg : va.toNat > vb.toNat
    · simp [h, hg]
    · refine .inr (.inr ⟨by omega, ?_⟩)
      simp [h, hg]

end Sys2Proof.Machine
end

