-- ==== Sys2Proof/Laws/PerInstr.lean ====
section
/-! SUPPORT. A fact about every instruction as syntax, one lemma per constructor: its encoding starts with a known
opcode and has 1 to 3 bytes. -/

namespace Sys2Proof.Laws.EncodingShape

/-- The encoding starts with an opcode the decoder knows and has 1 to 3 bytes (spec/30_encoding.md R70, R80). -/
def Statement (i : Instr) : Prop :=
  (encode i).head? = some (opcodeOf i) ∧ (classify (opcodeOf i)).known = true ∧
  1 ≤ (encode i).length ∧ (encode i).length ≤ 3

theorem hlt : Statement (.hlt) := by simp [Statement, encode, operandBytes, opcodeOf, classify, known, opShape]
theorem ret : Statement (.ret) := by simp [Statement, encode, operandBytes, opcodeOf, classify, known, opShape]
theorem push (a : Byte) : Statement (.push a) := by simp [Statement, encode, operandBytes, opcodeOf, classify, known, opShape]
theorem pop (a : Byte) : Statement (.pop a) := by simp [Statement, encode, operandBytes, opcodeOf, classify, known, opShape]
theorem prn (a : Byte) : Statement (.prn a) := by simp [Statement, encode, operandBytes, opcodeOf, classify, known, opShape]
theorem call (a : Byte) : Statement (.call a) := by simp [Statement, encode, operandBytes, opcodeOf, classify, known, opShape]
theorem jmp (a : Byte) : Statement (.jmp a) := by simp [Statement, encode, operandBytes, opcodeOf, classify, known, opShape]
theorem jeq (a : Byte) : Statement (.jeq a) := by simp [Statement, encode, operandBytes, opcodeOf, classify, known, opShape]
theorem jne (a : Byte) : Statement (.jne a) := by simp [Statement, encode, operandBytes, opcodeOf, classify, known, opShape]
theorem not (a : Byte) : Statement (.not a) := by simp [Statement, encode, operandBytes, opcodeOf, classify, known, opShape]
theorem ldi (a b : Byte) : Statement (.ldi a b) := by simp [Statement, encode, operandBytes, opcodeOf, classify, known, opShape]
theorem add (a b : Byte) : Statement (.add a b) := by simp [Statement, encode, operandBytes, opcodeOf, classify, known, opShape]
theorem sub (a b : Byte) : Statement (.sub a b) := by simp [Statement, encode, operandBytes, opcodeOf, classify, known, opShape]
theorem mul (a b : Byte) : Statement (.mul a b) := by simp [Statement, encode, operandBytes, opcodeOf, classify, known, opShape]
theorem div (a b : Byte) : Statement (.div a b) := by simp [Statement, encode, operandBytes, opcodeOf, classify, known, opShape]
theorem mod (a b : Byte) : Statement (.mod a b) := by simp [Statement, encode, operandBytes, opcodeOf, classify, known, opShape]
theorem cmp (a b : Byte) : Statement (.cmp a b) := by simp [Statement, encode, operandBytes, opcodeOf, classify, known, opShape]
theorem and (a b : Byte) : Statement (.and a b) := by simp [Statement, encode, operandBytes, opcodeOf, classify, known, opShape]
theorem or (a b : Byte) : Statement (.or a b) := by simp [Statement, encode, operandBytes, opcodeOf, classify, known, opShape]
theorem xor (a b : Byte) : Statement (.xor a b) := by simp [Statement, encode, operandBytes, opcodeOf, classify, known, opShape]
theorem shl (a b : Byte) : Statement (.shl a b) := by simp [Statement, encode, operandBytes, opcodeOf, classify, known, opShape]
theorem shr (a b : Byte) : Statement (.shr a b) := by simp [Statement, encode, operandBytes, opcodeOf, classify, known, opShape]

end Sys2Proof.Laws.EncodingShape
end

