-- ==== Sys2Proof/Laws/Step.lean ====
section
/-! SUPPORT. Fetching, and what a step can do, said once. -/

namespace Sys2Proof.Machine

/-! ### Fetch -/

@[simp] theorem fetchBytes_start (s : State) : fetchBytes s.start = fetchBytes s := by
  simp [fetchBytes]

theorem bytesFrom_length (m : Memory) (n addr : Nat) :
    (bytesFrom m n addr).length = min n (Config.memSize - addr) := by
  induction n generalizing addr with
  | zero => simp [bytesFrom]
  | succ n ih =>
    unfold bytesFrom
    split
    · simp only [List.length_cons, ih]; omega
    · simp; omega

theorem bytesFrom_getElem? (m : Memory) (n addr k : Nat) (hk : k < n) (ha : addr + k < Config.memSize) :
    (bytesFrom m n addr)[k]? = some (Memory.read m (addr + k)) := by
  induction n generalizing addr k with
  | zero => omega
  | succ n ih =>
    unfold bytesFrom
    rw [if_pos (by omega)]
    cases k with
    | zero => simp
    | succ k =>
      simp only [List.getElem?_cons_succ]
      rw [ih (addr + 1) k (by omega) (by omega)]
      congr 2; omega

theorem fetchBytes_length (s : State) : (fetchBytes s).length = min 3 (256 - s.pc.toNat) :=
  bytesFrom_length _ _ _

/-! ### Decode, from the opcode's shape -/

/-- An instruction and the bytes after it use up what was fetched. -/
theorem decode_length {bytes rest : List Byte} {i : Instr} (h : decode bytes = .ok (i, rest)) :
    rest.length + 1 ≤ bytes.length := by
  unfold decode at h
  repeat' split at h
  all_goals simp_all

/-! ### The step -/

/-- Everything the error of a failed fetch or decode can do. -/
theorem raiseDecodeError_next {e : DecodeError} {s t : State} (h : raiseDecodeError e s = .next t) :
    ∃ k info, t = s.raised k info := by
  cases e <;> exact ⟨_, _, raise_next h⟩

/-- Everything a step can do: nothing in state Halted; otherwise execute the decoded instruction from the started
state, or raise the error of the failed fetch or decode. -/
theorem step_cases {s t : State} (h : step s = .next t) :
    (s.status = .halted ∧ t = s) ∨
    (s.status ≠ .halted ∧ ∃ i rest, decode (fetchBytes s) = .ok (i, rest) ∧ exec i s.start = .next t) ∨
    (s.status ≠ .halted ∧ ∃ e, decode (fetchBytes s) = .error e ∧ raiseDecodeError e s.start = .next t) := by
  have run : runInstr s.start = .next t →
      (∃ i rest, decode (fetchBytes s) = .ok (i, rest) ∧ exec i s.start = .next t) ∨
      (∃ e, decode (fetchBytes s) = .error e ∧ raiseDecodeError e s.start = .next t) := by
    intro h
    unfold runInstr at h
    rw [fetchBytes_start] at h
    split at h
    · exact .inl ⟨_, _, by assumption, h⟩
    · exact .inr ⟨_, by assumption, h⟩
  unfold step at h
  split at h
  · injection h with h; exact .inl ⟨by assumption, h.symm⟩
  · rename_i hs
    rcases run h with h | h
    · exact .inr (.inl ⟨by simp [hs], h⟩)
    · exact .inr (.inr ⟨by simp [hs], h⟩)
  · rename_i hs
    rcases run h with h | h
    · exact .inr (.inl ⟨by simp [hs], h⟩)
    · exact .inr (.inr ⟨by simp [hs], h⟩)

end Sys2Proof.Machine
end

