-- ==== Sys2Proof/Tests/Slice0.lean ====
section
/-! SUPPORT. Tests: the refusals of WellFormed, opcode bytes written out from spec/30_encoding.md, the vectors of
spec/95_test_vectors.md, and for every statement with hypotheses a witness that meets them. Every expected value is the
spec's. -/

namespace Sys2Proof.Tests

open Sys2Proof Sys2Proof.Machine

/-! ### Helpers -/

/-- The engine after `load` of an image at address 0. -/
def loaded (image : List Byte) : State := load image 0#8 State.reset

/-- The reset state with two values in registers 0 and 1. -/
def regs01 (x0 x1 : Byte) : State := (State.reset.writeReg 0 x0).writeReg 1 x1

/-- The reset state with a stack pointer. -/
def spAt (v : Byte) : State := State.reset.setSp v

/-- The reset state at a program counter, with bytes placed from there upward. -/
def atPc (pc : Word9) (bytes : List Byte) : State :=
  { State.reset.setPc pc with mem := placeBytes [] pc.toNat bytes }

/-- The next state, where there is one. -/
def next? : Result → Option State
  | .next t => some t
  | .fault _ => none
  | .refused _ => none

/-- Register 0 and the program counter of the next state. -/
def r0pc (r : Result) : Option (Byte × Word9) := (next? r).map fun t => (t.readReg 0, t.pc)

/-- The flags of the next state as (E, G, L). -/
def egl (r : Result) : Option (Bool × Bool × Bool) := (next? r).map fun t => (t.flags.e, t.flags.g, t.flags.l)

/-- The error record of the next state, where it is Halted with one. -/
def record (r : Result) : Option FaultRecord :=
  (next? r).bind fun t => if t.status = .halted then t.fault else none

/-! ### WellFormed refuses an index above 7, at each register operand -/

theorem test_wf_first_operand : Instr.wf (.push 8#8) = false := by decide
theorem test_wf_first_of_two : Instr.wf (.add 8#8 0#8) = false := by decide
theorem test_wf_second_of_two : Instr.wf (.cmp 7#8 8#8) = false := by decide
theorem test_wf_ldi_register : Instr.wf (.ldi 255#8 0#8) = false := by decide
theorem test_wf_ldi_immediate : Instr.wf (.ldi 7#8 255#8) = true := by decide
theorem test_wf_top_register : Instr.wf (.div 7#8 7#8) = true := by decide

/-! ### Decoding, from the binary column of R78 -/

theorem test_decode_hlt : decode [0b00000001#8] = .ok (.hlt, []) := by decide
theorem test_decode_ret : decode [0b00010001#8] = .ok (.ret, []) := by decide
theorem test_decode_push : decode [0b01000101#8, 3#8] = .ok (.push 3#8, []) := by decide
theorem test_decode_pop : decode [0b01000110#8, 3#8] = .ok (.pop 3#8, []) := by decide
theorem test_decode_prn : decode [0b01000111#8, 7#8] = .ok (.prn 7#8, []) := by decide
theorem test_decode_call : decode [0b01010000#8, 1#8] = .ok (.call 1#8, []) := by decide
theorem test_decode_jmp : decode [0b01010100#8, 2#8] = .ok (.jmp 2#8, []) := by decide
theorem test_decode_jeq : decode [0b01010101#8, 2#8] = .ok (.jeq 2#8, []) := by decide
theorem test_decode_jne : decode [0b01010110#8, 2#8] = .ok (.jne 2#8, []) := by decide
theorem test_decode_not : decode [0b01101001#8, 5#8, 9#8] = .ok (.not 5#8, [9#8]) := by decide
theorem test_decode_ldi : decode [0b10000010#8, 0#8, 8#8] = .ok (.ldi 0#8 8#8, []) := by decide
theorem test_decode_add : decode [0b10100000#8, 0#8, 1#8] = .ok (.add 0#8 1#8, []) := by decide
theorem test_decode_sub : decode [0b10100001#8, 0#8, 1#8] = .ok (.sub 0#8 1#8, []) := by decide
theorem test_decode_mul : decode [0b10100010#8, 0#8, 1#8] = .ok (.mul 0#8 1#8, []) := by decide
theorem test_decode_div : decode [0b10100011#8, 0#8, 1#8] = .ok (.div 0#8 1#8, []) := by decide
theorem test_decode_mod : decode [0b10100100#8, 0#8, 1#8] = .ok (.mod 0#8 1#8, []) := by decide
theorem test_decode_cmp : decode [0b10100111#8, 4#8, 5#8] = .ok (.cmp 4#8 5#8, []) := by decide
theorem test_decode_and : decode [0b10101000#8, 0#8, 1#8] = .ok (.and 0#8 1#8, []) := by decide
theorem test_decode_or : decode [0b10101010#8, 0#8, 1#8] = .ok (.or 0#8 1#8, []) := by decide
theorem test_decode_xor : decode [0b10101011#8, 0#8, 1#8] = .ok (.xor 0#8 1#8, []) := by decide
theorem test_decode_shl : decode [0b10101100#8, 1#8, 2#8] = .ok (.shl 1#8 2#8, []) := by decide
theorem test_decode_shr : decode [0b10101101#8, 1#8, 2#8] = .ok (.shr 1#8 2#8, []) := by decide

/-- Bytes of the public LS8 set that are no instruction here (vector E11). -/
theorem test_decode_illegal :
    ([0x00#8, 0x13#8, 0x48#8, 0x52#8, 0x57#8, 0x58#8, 0x59#8, 0x5A#8, 0x65#8, 0x66#8, 0x83#8, 0x84#8, 0xA5#8, 0xA6#8,
      0xA9#8, 0xC0#8, 0xFF#8].map fun op => decode [op, 0#8, 0#8]) =
    [0x00#8, 0x13#8, 0x48#8, 0x52#8, 0x57#8, 0x58#8, 0x59#8, 0x5A#8, 0x65#8, 0x66#8, 0x83#8, 0x84#8, 0xA5#8, 0xA6#8,
      0xA9#8, 0xC0#8, 0xFF#8].map fun op => .error (.illegalOpcode op) := by decide

/-- An unknown opcode is reported before a missing operand (vector E5). -/
theorem test_decode_priority : decode [0xC5#8] = .error (.illegalOpcode 0xC5#8) := by decide

theorem test_decode_missing_b : decode [0x82#8, 0#8] = .error (.missingOperand 2) := by decide

/-- The decode vectors of spec/95_test_vectors.md 2.5. -/
theorem test_classify :
    [0x82#8, 0xA7#8, 0x69#8, 0x55#8, 0x11#8, 0x01#8, 0x00#8, 0xC5#8].map classify =
    [⟨2, false, false, 2, true⟩, ⟨2, true, false, 7, true⟩, ⟨1, true, false, 9, true⟩, ⟨1, false, true, 5, true⟩,
     ⟨0, false, true, 1, true⟩, ⟨0, false, false, 1, true⟩, ⟨0, false, false, 0, false⟩,
     ⟨3, false, false, 5, false⟩] := by decide

/-- The table's row of LDI with 24 bits: `a` is bits 15..8, `b` bits 23..16. -/
theorem test_table_word : decodeTableWord 24 0x080782 = some (.ldi 7#8 8#8) := by decide
/-- Bits at and above `nbits` are 0. -/
theorem test_table_word_short : decodeTableWord 8 0x0807A0 = some (.add 0#8 0#8) := by decide
theorem test_fetch_word_runs :
    r0pc (step (State.reset.withFetchWord 24 0x080082)) = some (8#8, 3#9) := by decide

/-! ### ALU vectors, spec/95_test_vectors.md 2.1 -/

theorem test_add_wraps : r0pc (exec (.add 0#8 1#8) (regs01 0xC8#8 0x64#8)) = some (0x2C#8, 3#9) := by decide
theorem test_add_same : r0pc (exec (.add 0#8 0#8) (regs01 0x81#8 0#8)) = some (0x02#8, 3#9) := by decide
theorem test_sub_wraps : r0pc (exec (.sub 0#8 1#8) (regs01 3#8 5#8)) = some (0xFE#8, 3#9) := by decide
theorem test_sub_borrow : r0pc (exec (.sub 0#8 1#8) (regs01 0x80#8 1#8)) = some (0x7F#8, 3#9) := by decide
theorem test_mul_low_byte : r0pc (exec (.mul 0#8 1#8) (regs01 0xFF#8 0xFF#8)) = some (1#8, 3#9) := by decide
theorem test_mul_same : r0pc (exec (.mul 0#8 0#8) (regs01 0x0F#8 0#8)) = some (0xE1#8, 3#9) := by decide
theorem test_div_unsigned : r0pc (exec (.div 0#8 1#8) (regs01 0x80#8 2#8)) = some (0x40#8, 3#9) := by decide
theorem test_div_by_zero :
    record (exec (.div 0#8 1#8) (regs01 9#8 0#8)) = some ⟨.divisionByZero, 0#9, 1#9⟩ := by decide
theorem test_mod_result : r0pc (exec (.mod 0#8 1#8) (regs01 0xFF#8 0x80#8)) = some (0x7F#8, 3#9) := by decide
theorem test_mod_by_zero_keeps : r0pc (exec (.mod 0#8 1#8) (regs01 9#8 0#8)) = some (9#8, 0#9) := by decide
theorem test_and_result : r0pc (exec (.and 0#8 1#8) (regs01 0xF0#8 0x3C#8)) = some (0x30#8, 3#9) := by decide
theorem test_or_result : r0pc (exec (.or 0#8 1#8) (regs01 0xF0#8 0x3C#8)) = some (0xFC#8, 3#9) := by decide
theorem test_xor_result : r0pc (exec (.xor 0#8 1#8) (regs01 0xF0#8 0x3C#8)) = some (0xCC#8, 3#9) := by decide
theorem test_not_result : r0pc (exec (.not 0#8) (regs01 0xA5#8 0#8)) = some (0x5A#8, 2#9) := by decide
theorem test_shl_out : r0pc (exec (.shl 0#8 1#8) (regs01 0x81#8 1#8)) = some (0x02#8, 3#9) := by decide
theorem test_shl_eight : r0pc (exec (.shl 0#8 1#8) (regs01 0xFF#8 8#8)) = some (0#8, 3#9) := by decide
theorem test_shr_logical : r0pc (exec (.shr 0#8 1#8) (regs01 0x80#8 1#8)) = some (0x40#8, 3#9) := by decide
theorem test_shr_full : r0pc (exec (.shr 0#8 1#8) (regs01 0xFF#8 0xFF#8)) = some (0#8, 3#9) := by decide
theorem test_cmp_unsigned : egl (exec (.cmp 0#8 1#8) (regs01 0x80#8 0x7F#8)) = some (false, true, false) := by decide
/-- No stale flag: an earlier Equal is cleared. -/
theorem test_cmp_clears :
    egl (exec (.cmp 0#8 1#8) ((regs01 5#8 6#8).setFlags ⟨true, false, false⟩)) = some (false, false, true) := by decide

/-! ### Stack vectors, spec/95_test_vectors.md 2.2 -/

/-- K5: PUSH R7 stores the decremented pointer. -/
theorem test_push_sp :
    (next? (exec (.push 7#8) State.reset)).map (fun t => (t.sp, t.memRead 0xF3#8)) = some (0xF3#8, 0xF3#8) := by decide
/-- K2. -/
theorem test_push_at_zero : record (exec (.push 0#8) (spAt 0#8)) = some ⟨.stackFault, 0#9, 0#9⟩ := by decide
/-- K6: POP R7 ends with the popped byte plus 1. -/
theorem test_pop_sp :
    (next? (exec (.pop 7#8) ((spAt 0xF3#8).memWrite 0xF3#8 0x20#8))).map State.sp = some 0x21#8 := by decide
/-- K7: POP R7 of 0xFF. -/
theorem test_pop_sp_top :
    record (exec (.pop 7#8) ((spAt 0xF3#8).memWrite 0xF3#8 0xFF#8)) = some ⟨.stackFault, 0#9, 0xFF#9⟩ := by decide
/-- K8: CALL R7. -/
theorem test_call_sp :
    (next? (exec (.call 7#8) State.reset)).map (fun t => (t.sp, t.memRead 0xF3#8, t.pc)) =
      some (0xF3#8, 2#8, 0xF3#9) := by decide
/-- E4: the return address does not fit. -/
theorem test_call_at_top : record (exec (.call 0#8) (State.reset.setPc 0xFE#9)) =
    some ⟨.outOfBounds, 0xFE#9, 0x100#9⟩ := by decide
/-- K9. -/
theorem test_ret_at_top : record (exec .ret (spAt 0xFF#8)) = some ⟨.stackFault, 0#9, 0xFF#9⟩ := by decide
theorem test_ret_pops :
    (next? (exec .ret ((spAt 0xF3#8).memWrite 0xF3#8 8#8))).map (fun t => (t.pc, t.sp)) = some (8#9, 0xF4#8) := by decide

/-! ### Control flow, LDI, PRN, HLT, spec/95_test_vectors.md 2.3 and 2.4 -/

theorem test_jmp_target : r0pc (exec (.jmp 0#8) (regs01 0xFF#8 0#8)) = some (0xFF#8, 0xFF#9) := by decide
/-- J2: before any CMP, JEQ falls through; at 0xFE it leaves the program counter at 0x100. -/
theorem test_jeq_falls_off : r0pc (exec (.jeq 0#8) ((regs01 6#8 0#8).setPc 0xFE#9)) = some (6#8, 0x100#9) := by decide
theorem test_jeq_taken :
    r0pc (exec (.jeq 0#8) ((regs01 6#8 0#8).setFlags ⟨true, false, false⟩)) = some (6#8, 6#9) := by decide
/-- J1: before any CMP, JNE jumps. -/
theorem test_jne_first : r0pc (exec (.jne 0#8) (regs01 6#8 0#8)) = some (6#8, 6#9) := by decide
theorem test_jne_equal :
    r0pc (exec (.jne 0#8) ((regs01 6#8 0#8).setFlags ⟨true, false, false⟩)) = some (6#8, 2#9) := by decide
/-- L1: the immediate is not checked as an index. -/
theorem test_ldi_immediate : r0pc (exec (.ldi 0#8 0xFF#8) State.reset) = some (0xFF#8, 3#9) := by decide
/-- E8. -/
theorem test_ldi_index : record (step (loaded [0x82#8, 8#8, 1#8])) = some ⟨.outOfBounds, 0#9, 8#9⟩ := by decide
/-- L4: PRN R7 outputs the reset stack pointer, and its text is its decimal numeral. -/
theorem test_prn_sp : (next? (exec (.prn 7#8) State.reset)).map State.out = some [0xF4#8] := by decide
theorem test_prn_text : decimalText 0xFF#8 = "255" := by decide
/-- E2: HLT at the last cell. -/
theorem test_hlt_at_top :
    (next? (step (atPc 0xFF#9 [0x01#8]))).map (fun t => (t.pc, t.running, t.fault)) =
      some (0x100#9, false, none) := by decide
/-- L5: a second step changes nothing. -/
theorem test_hlt_is_final : (hostStep State.reset.halt).2 = false := by decide

/-! ### The step's errors and the host's operations, spec/95_test_vectors.md 2.5 -/

/-- E1, its last step. -/
theorem test_fetch_past_end : record (step (atPc 0x100#9 [])) = some ⟨.outOfBounds, 0x100#9, 0x100#9⟩ := by decide
/-- E3. -/
theorem test_operand_past_end :
    record (step (atPc 0xFE#9 [0x82#8, 0#8])) = some ⟨.outOfBounds, 0xFE#9, 0x100#9⟩ := by decide
/-- E6. -/
theorem test_first_operand_past_end :
    record (step (atPc 0xFF#9 [0x47#8])) = some ⟨.outOfBounds, 0xFF#9, 0x100#9⟩ := by decide
/-- E7: 0x00 is no instruction. -/
theorem test_no_nop : record (step State.reset) = some ⟨.illegalInstruction, 0#9, 0#9⟩ := by decide
/-- E9: the index is checked before the divisor. -/
theorem test_index_before_division :
    record (exec (.div 9#8 1#8) (regs01 0#8 0#8)) = some ⟨.outOfBounds, 0#9, 9#9⟩ := by decide
/-- P1: LDI R0,8; PRN R0; HLT outputs 8 and ends cleanly at 6. -/
theorem test_p1 :
    (run 3 (loaded [0x82#8, 0#8, 8#8, 0x47#8, 0#8, 1#8])).map (fun t => (t.out, t.pc, t.running, t.fault)) =
      some ([8#8], 6#9, false, none) := by decide
theorem test_load_refused : load (List.replicate 257 1#8) 0#8 State.reset = State.reset :=
  if_neg (by unfold loadAccepts; rw [List.length_replicate]; decide)

/-! ### Witnesses: the hypotheses of the statements, met -/

/-- A loaded engine is sound: the witness of the invariant as a premise. -/
theorem loaded_inv (image : List Byte) (h : image.length ≤ 256) : (loaded image).Inv := by
  have e : loaded image = { State.reset with pc := zext9 0#8, mem := Memory.ofBytes 0 image } :=
    if_pos (by simpa [loadAccepts] using h)
  rw [e]
  exact ⟨Memory.wf_ofBytes image h, by simp [zext9], by simp [State.reset], by simp [State.reset, Flags.AtMostOne],
    by simp [State.reset]⟩

theorem witness_StepRunsDecodedInstruction :
    (loaded [0x47#8, 7#8]).status ≠ .halted ∧
    decode (fetchBytes (loaded [0x47#8, 7#8])) = .ok (.prn 7#8, [0#8]) := by decide

theorem witness_FetchPastEndRaises :
    ((atPc 0xFF#9 []).status ≠ .halted ∧ (atPc 0xFF#9 []).pc.toNat ≤ 255) ∧
    ((atPc 0x100#9 []).status ≠ .halted ∧ 255 < (atPc 0x100#9 []).pc.toNat) := by decide

theorem witness_OpcodeSelectsInstruction :
    ((atPc 0xFF#9 [0xC5#8]).status ≠ .halted ∧ (atPc 0xFF#9 [0xC5#8]).pc.toNat ≤ 255 ∧
      known ((atPc 0xFF#9 [0xC5#8]).memRead ((atPc 0xFF#9 [0xC5#8]).pc.setWidth 8)) = false) ∧
    (known ((atPc 0xFE#9 [0x47#8, 0#8]).memRead ((atPc 0xFE#9 [0x47#8, 0#8]).pc.setWidth 8)) = true ∧
      (atPc 0xFE#9 [0x47#8, 0#8]).pc.toNat +
        operandCount ((atPc 0xFE#9 [0x47#8, 0#8]).memRead ((atPc 0xFE#9 [0x47#8, 0#8]).pc.setWidth 8)) ≤ 255) := by
  decide

theorem witness_OperandPastEndRaises :
    (known ((atPc 0xFF#9 [0x47#8]).memRead 0xFF#8) = true ∧ (atPc 0xFF#9 [0x47#8]).status ≠ .halted ∧
      255 < (atPc 0xFF#9 [0x47#8]).pc.toNat + operandCount 0x47#8) ∧
    (known ((atPc 0xFE#9 [0x82#8]).memRead 0xFE#8) = true ∧
      255 < (atPc 0xFE#9 [0x82#8]).pc.toNat + operandCount 0x82#8) := by decide

/-- Both clauses: HLT has opcode bit 4 clear, JMP has it set. -/
theorem witness_PcSequencedOncePerStep :
    (∃ t, (loaded [1#8]).Inv ∧ (loaded [1#8]).status ≠ .halted ∧
      decode (fetchBytes (loaded [1#8])) = .ok (.hlt, [0#8, 0#8]) ∧ step (loaded [1#8]) = .next t ∧ t.fault = none ∧
      setsPc (opcodeOf .hlt) = false) ∧
    (∃ t, (loaded [0x54#8, 7#8]).Inv ∧ (loaded [0x54#8, 7#8]).status ≠ .halted ∧
      decode (fetchBytes (loaded [0x54#8, 7#8])) = .ok (.jmp 7#8, [0#8]) ∧ step (loaded [0x54#8, 7#8]) = .next t ∧
      t.fault = none ∧ setsPc (opcodeOf (.jmp 7#8)) = true) :=
  ⟨⟨_, loaded_inv _ (by decide), by decide, by decide, rfl, by decide, by decide⟩,
   ⟨_, loaded_inv _ (by decide), by decide, by decide, rfl, by decide, by decide⟩⟩

theorem witness_RegisterIndexAboveSevenRaises :
    8 ≤ (8#8 : Byte).toNat ∧ (7#8 : Byte).toNat < 8 ∧ Instr.jeq 8#8 ∈ [Instr.jmp 8#8, .jeq 8#8] := by decide

theorem witness_StackFaultConditions :
    (7#8 : Byte).toNat < 8 ∧ (spAt 0x00#8).readReg 7 = 0x00#8 ∧ ((spAt 0x00#8).setPc 253#9).pc.toNat + 2 ≤ 255 ∧
    (spAt 0xFF#8).readReg 7 = 0xFF#8 ∧
    ((spAt 0xFE#8).memWrite 0xFE#8 0xFF#8).readReg 7 ≠ 0xFF#8 ∧
    ((spAt 0xFE#8).memWrite 0xFE#8 0xFF#8).memRead (((spAt 0xFE#8).memWrite 0xFE#8 0xFF#8).readReg 7) = 0xFF#8 := by
  decide

theorem witness_CallAtTopOfMemoryRaises :
    (7#8 : Byte).toNat < 8 ∧ (State.reset.setPc 0xFE#9).pc = 0x0FE#9 := by decide

theorem witness_ErrorsArePrecise :
    ∃ t, step State.reset = .next t ∧ t.fault ≠ State.reset.fault := ⟨_, rfl, by decide⟩

/-- Legal indices at the top of their range, for every result statement; the same register twice among them. -/
theorem witness_legal_indices : (7#8 : Byte).toNat < 8 ∧ (0#8 : Byte).toNat < 8 := by decide

/-- Both clauses of DIV and MOD. -/
theorem witness_DivisionResults : (regs01 9#8 0#8).readReg 1 = 0#8 ∧ (regs01 9#8 1#8).readReg 1 ≠ 0#8 := by decide

/-- PUSH's premise at its boundary. -/
theorem witness_PushStoresBelowStack : (spAt 0x01#8).readReg 7 ≠ 0x00#8 := by decide

/-- POP's premises at their boundary, for register 7 and for another one. -/
theorem witness_PopLoadsTopOfStack :
    (spAt 0xFE#8).readReg 7 ≠ 0xFF#8 ∧ (spAt 0xFE#8).memRead ((spAt 0xFE#8).readReg 7) ≠ 0xFF#8 ∧
    ((0#8 : Byte) = 7#8 → (spAt 0xFE#8).memRead ((spAt 0xFE#8).readReg 7) ≠ 0xFF#8) := by decide

/-- CALL's premises at their boundary. -/
theorem witness_CallPushesReturnAddress :
    ((spAt 0x01#8).setPc 253#9).pc.toNat + 2 ≤ 255 ∧ ((spAt 0x01#8).setPc 253#9).readReg 7 ≠ 0x00#8 := by decide

theorem witness_ReturnPopsProgramCounter : (spAt 0xFE#8).readReg 7 ≠ 0xFF#8 := by decide

/-- The frames' premise: an instruction that completes and one that raises both answer a next state. -/
theorem witness_frames :
    (∃ t, exec (.add 7#8 7#8) State.reset = .next t) ∧ (∃ t, exec (.add 8#8 7#8) State.reset = .next t) ∧
    (∃ t, exec (.cmp 7#8 0#8) State.reset = .next t) ∧ (∃ t, exec (.push 7#8) State.reset = .next t) ∧
    (∃ t, exec (.pop 0#8) State.reset = .next t) ∧ (∃ t, exec .ret State.reset = .next t) :=
  ⟨⟨_, rfl⟩, ⟨_, rfl⟩, ⟨_, rfl⟩, ⟨_, rfl⟩, ⟨_, rfl⟩, ⟨_, rfl⟩⟩

/-- A flag triple that agrees on Equal alone for a jump, and one that agrees on nothing for another instruction. -/
theorem witness_FlagsWrittenByCompareReadByJumps :
    (∃ t, exec (.jeq 7#8) State.reset = .next t ∧ (∀ a b, Instr.jeq 7#8 ≠ .cmp a b)) ∧
    (⟨false, true, true⟩ : Flags).e = State.reset.flags.e ∧
    (∃ t, exec .hlt State.reset = .next t ∧ ∀ a, Instr.hlt ≠ .jeq a ∧ Instr.hlt ≠ .jne a) :=
  ⟨⟨_, rfl, by simp⟩, rfl, ⟨_, rfl, by simp⟩⟩

theorem witness_MemoryWrittenByPushAndCallOnly :
    ∃ t, step (loaded [0x45#8, 7#8]) = .next t ∧ t.mem ≠ (loaded [0x45#8, 7#8]).mem := ⟨_, rfl, by decide⟩

theorem witness_OutputGrowsByPrintOnly : ∃ t, step (loaded [0x47#8, 7#8]) = .next t := ⟨_, rfl⟩

theorem witness_HaltedIsTerminal : State.reset.halt.status = .halted := by decide

/-- A step that stays Running, one that halts and one that raises, from sound states. -/
theorem witness_StatusTransitions :
    (∃ t, (loaded [0x47#8, 7#8]).Inv ∧ (loaded [0x47#8, 7#8]).status ≠ .halted ∧ step (loaded [0x47#8, 7#8]) = .next t ∧
      t.status = .running) ∧
    (∃ t, (loaded [1#8]).Inv ∧ step (loaded [1#8]) = .next t ∧ t.status = .halted ∧ t.fault = none) ∧
    (∃ t, (loaded [0#8]).Inv ∧ step (loaded [0#8]) = .next t ∧ t.fault ≠ none) :=
  ⟨⟨_, loaded_inv _ (by decide), by decide, rfl, by decide⟩,
   ⟨_, loaded_inv _ (by decide), rfl, by decide, by decide⟩, ⟨_, loaded_inv _ (by decide), rfl, by decide⟩⟩

/-- A run that ends, and one that does not (JMP to itself, vector J3 in small). -/
theorem witness_RunEndsExactlyWhenHalted :
    (∃ t, (loaded [1#8]).Inv ∧ run 1 (loaded [1#8]) = some t) ∧
    ((loaded [0x54#8, 0#8]).Inv ∧ run 1 (loaded [0x54#8, 0#8]) = none) :=
  ⟨⟨_, loaded_inv _ (by decide), rfl⟩, loaded_inv _ (by decide), by decide⟩

theorem witness_StepKeepsSoundState : ∃ t, (loaded [1#8]).Inv ∧ step (loaded [1#8]) = .next t :=
  ⟨_, loaded_inv _ (by decide), rfl⟩

/-- Both clauses of a load, at 256 and at 257 bytes. -/
theorem witness_LoadPlacesImage :
    (List.replicate 256 1#8).length ≤ 256 ∧ 256 < (List.replicate 257 1#8).length := by
  simp only [List.length_replicate]; decide

theorem witness_FlagsAreMutuallyExclusive :
    (∃ t, exec (.cmp 7#8 0#8) State.reset = .next t) ∧ State.reset.flags.AtMostOne ∧
    (⟨true, false, false⟩ : Flags).ExactlyOne ∧ (∃ t, step (State.reset.setFlags ⟨true, false, false⟩) = .next t) :=
  ⟨⟨_, rfl⟩, by simp [State.reset, Flags.AtMostOne], by simp [Flags.ExactlyOne, Flags.AtMostOne], ⟨_, rfl⟩⟩

theorem witness_PushThenPopRestores :
    (6#8 : Byte).toNat < 8 ∧ (6#8 : Byte) ≠ 7#8 ∧ (spAt 0x01#8).readReg 7 ≠ 0x00#8 := by decide

/-- A subroutine state with the stack pointer and the return address in place: the CALL's own next state. -/
theorem witness_CallThenReturnResumes :
    ∃ t, (1#8 : Byte).toNat < 8 ∧ exec (.call 1#8) (regs01 0#8 0x0B#8) = .next t ∧ t.fault = none ∧
      t.readReg 7 = t.readReg 7 ∧ t.memRead (t.readReg 7) = t.memRead (t.readReg 7) :=
  ⟨_, by decide, rfl, by decide, rfl, rfl⟩

theorem witness_PushedByteIsFetchedNext :
    (6#8 : Byte).toNat < 8 ∧ (6#8 : Byte) ≠ 7#8 ∧ (spAt 0x03#8).readReg 7 ≠ 0x00#8 ∧
    (spAt 0x03#8).pc + 2#9 = ((spAt 0x03#8).readReg 7 - 1#8).setWidth 9 := by decide

end Sys2Proof.Tests
end

section
/-! The flags (spec/10_state.md R29 to R31): who reads them, who writes them, and that at most one is ever set.

The idea: running an instruction from a state with other flags answers the same result with those flags put in. With the
state's OWN flags put in, that equation says the instruction leaves the flags as they are; with other flags, that it does
not read them. So one commuting rule per shared operation gives both halves of R30. -/

namespace Sys2Proof.Machine

/-! ### Other flags commute with every operation that neither reads nor writes them -/

/-- A result with the flags of its next state replaced. -/
def setResultFlags (f : Flags) : Result → Result
  | .next t => .next (t.setFlags f)
  | .fault r => .fault r
  | .refused r => .refused r

@[simp] theorem setResultFlags_next (f : Flags) (t : State) :
    setResultFlags f (.next t) = .next (t.setFlags f) := rfl

theorem raise_setFlags (k : ErrorKind) (info : Word9) (f : Flags) (s : State) :
    raise k info (s.setFlags f) = setResultFlags f (raise k info s) := rfl

theorem ite_setFlags {c : Prop} [Decidable c] {f : Flags} {x x' y y' : Result} (hx : x' = setResultFlags f x)
    (hy : y' = setResultFlags f y) : (if c then x' else y') = setResultFlags f (if c then x else y) := by
  rw [hx, hy, apply_ite (setResultFlags f)]

theorem withReg_setFlags {v : Byte} {f : Flags} {s : State} {body body' : RegIndex → Result}
    (hbody : ∀ r, body' r = setResultFlags f (body r)) :
    withReg v (s.setFlags f) body' = setResultFlags f (withReg v s body) := by
  unfold withReg
  cases regOf v with
  | none => exact raise_setFlags ..
  | some r => exact hbody r

theorem withRegs_setFlags {a b : Byte} {f : Flags} {s : State} {body body' : RegIndex → RegIndex → Result}
    (hbody : ∀ ra rb, body' ra rb = setResultFlags f (body ra rb)) :
    withRegs a b (s.setFlags f) body' = setResultFlags f (withRegs a b s body) :=
  withReg_setFlags fun ra => withReg_setFlags (hbody ra)

theorem withPushSlot_setFlags {f : Flags} {s : State} {body body' : State → Result}
    (hbody : ∀ t, body' (t.setFlags f) = setResultFlags f (body t)) :
    withPushSlot (s.setFlags f) body' = setResultFlags f (withPushSlot s body) := by
  by_cases hsp : s.sp = 0x00#8
  · rw [withPushSlot_zero hsp, withPushSlot_zero (s := s.setFlags f) hsp]; rfl
  · rw [withPushSlot_pos hsp, withPushSlot_pos (s := s.setFlags f) hsp]; exact hbody (s.setSp _)

theorem withPopped_setFlags {f : Flags} {s : State} {body body' : Byte → Result}
    (hbody : ∀ v, body' v = setResultFlags f (body v)) :
    withPopped (s.setFlags f) body' = setResultFlags f (withPopped s body) := by
  by_cases hsp : s.sp = 0xFF#8
  · rw [withPopped_top hsp, withPopped_top (s := s.setFlags f) hsp]; rfl
  · rw [withPopped_below hsp, withPopped_below (s := s.setFlags f) hsp]; exact hbody _

theorem jumpIf_setFlags {taken taken' : Bool} (h : taken' = taken) (a : Byte) (f : Flags) (s : State) :
    jumpIf taken' a (s.setFlags f) = setResultFlags f (jumpIf taken a s) :=
  h ▸ withReg_setFlags fun _ => ite_setFlags rfl rfl

theorem aluWriteBack_setFlags {out : AluOut} (hout : ∀ g, out ≠ .flags g) (ra rb : RegIndex) (len : Nat) (f : Flags)
    (s : State) : aluWriteBack ra rb len (s.setFlags f) out = setResultFlags f (aluWriteBack ra rb len s out) := by
  cases out with
  | result v => rfl
  | flags g => exact absurd rfl (hout g)
  | divisionByZero => rfl

/-- CMP is the only tag that answers flags (spec/41_alu.md R120). -/
theorem alu_ne_flags {op : AluOp} (hop : op ≠ .cmp) (va vb : Byte) (g : Flags) : alu op va vb ≠ .flags g := by
  rcases alu_cases op va vb with ⟨hcmp, -⟩ | ⟨-, v, hv⟩ | ⟨-, -, hv⟩
  · exact absurd hcmp hop
  · simp [hv]
  · simp [hv]

theorem execAluRR_setFlags {op : AluOp} (hop : op ≠ .cmp) (a b : Byte) (f : Flags) (s : State) :
    execAluRR op a b (s.setFlags f) = setResultFlags f (execAluRR op a b s) :=
  withRegs_setFlags fun ra rb => aluWriteBack_setFlags (alu_ne_flags hop _ _) ra rb 3 f s

theorem execNot_setFlags (a : Byte) (f : Flags) (s : State) :
    execNot a (s.setFlags f) = setResultFlags f (execNot a s) :=
  withReg_setFlags fun ra => aluWriteBack_setFlags (alu_ne_flags (by decide) _ _) ra ra 2 f s

theorem execPush_setFlags (a : Byte) (f : Flags) (s : State) :
    execPush a (s.setFlags f) = setResultFlags f (execPush a s) :=
  withReg_setFlags fun _ => withPushSlot_setFlags fun _ => rfl

theorem execPop_setFlags (a : Byte) (f : Flags) (s : State) :
    execPop a (s.setFlags f) = setResultFlags f (execPop a s) :=
  withReg_setFlags fun _ => withPopped_setFlags fun _ => ite_setFlags rfl rfl

theorem execCall_setFlags (a : Byte) (f : Flags) (s : State) :
    execCall a (s.setFlags f) = setResultFlags f (execCall a s) :=
  withReg_setFlags fun _ => ite_setFlags rfl (withPushSlot_setFlags fun _ => rfl)

theorem execRet_setFlags (f : Flags) (s : State) : execRet (s.setFlags f) = setResultFlags f (execRet s) :=
  withPopped_setFlags fun _ => rfl

/-- Every instruction but CMP neither writes the flags nor reads them, but for JEQ and JNE, which read Equal
(spec/10_state.md R30). -/
theorem exec_setFlags {i : Instr} {f : Flags} {s : State} (hcmp : ∀ a b, i ≠ .cmp a b)
    (hread : f.e = s.flags.e ∨ ∀ a, i ≠ .jeq a ∧ i ≠ .jne a) :
    exec i (s.setFlags f) = setResultFlags f (exec i s) := by
  cases i with
  | hlt => rfl
  | ret => exact execRet_setFlags f s
  | push a => exact execPush_setFlags a f s
  | pop a => exact execPop_setFlags a f s
  | prn a => exact withReg_setFlags fun _ => rfl
  | call a => exact execCall_setFlags a f s
  | jmp a => exact jumpIf_setFlags rfl a f s
  | jeq a =>
    have he : jumpsIfEqual f = jumpsIfEqual s.flags := hread.resolve_right fun h => (h a).1 rfl
    exact jumpIf_setFlags he a f s
  | jne a =>
    have he : jumpsIfNotEqual f = jumpsIfNotEqual s.flags :=
      congrArg (! ·) (hread.resolve_right fun h => (h a).2 rfl)
    exact jumpIf_setFlags he a f s
  | not a => exact execNot_setFlags a f s
  | ldi a b => exact withReg_setFlags fun _ => rfl
  | cmp a b => exact absurd rfl (hcmp a b)
  | add a b | sub a b | mul a b | div a b | mod a b | and a b | or a b | xor a b | shl a b | shr a b =>
    exact execAluRR_setFlags (by decide) a b f s

/-- Every instruction but CMP leaves the flags as they are: the state's own flags are put in. -/
theorem exec_keeps_flags {i : Instr} {s t : State} (h : exec i s = .next t) (hcmp : ∀ a b, i ≠ .cmp a b) :
    t.flags = s.flags := by
  have hown : exec i s = setResultFlags s.flags (exec i s) := exec_setFlags (f := s.flags) hcmp (.inl rfl)
  rw [h, setResultFlags_next] at hown
  injection hown with ht
  exact (congrArg State.flags ht).trans (t.setFlags_flags s.flags)

/-! ### CMP -/

theorem exec_cmp_of_lt {a b : Byte} (ha : a.toNat < 8) (hb : b.toNat < 8) (s : State) :
    exec (.cmp a b) s =
      .next ((s.setFlags (compareFlags (s.readReg ⟨a.toNat, ha⟩) (s.readReg ⟨b.toNat, hb⟩))).advance 3) :=
  withRegs_of_lt ha hb s _

/-- The operand bytes alone decide whether a CMP compares two registers or raises. -/
theorem exec_cmp_cases (a b : Byte) :
    (∃ ra rb, ∀ s, exec (.cmp a b) s =
      .next ((s.setFlags (compareFlags (s.readReg ra) (s.readReg rb))).advance 3)) ∨
    ∃ info, ∀ s, exec (.cmp a b) s = .next (s.raised .outOfBounds info) := by
  by_cases ha : a.toNat < 8
  · by_cases hb : b.toNat < 8
    · exact .inl ⟨_, _, exec_cmp_of_lt ha hb⟩
    · exact .inr ⟨_, fun s => (withReg_of_lt ha s _).trans (withReg_of_le (by omega) s _)⟩
  · exact .inr ⟨_, fun s => withReg_of_le (by omega) s _⟩

theorem compareFlags_exactlyOne (va vb : Byte) : (compareFlags va vb).ExactlyOne := by
  rcases compareFlags_cases va vb with ⟨-, h⟩ | ⟨-, h⟩ | ⟨-, h⟩ <;> simp [h, Flags.ExactlyOne, Flags.AtMostOne]

/-- A CMP run with other flags answers the same next state but for the flags: those put in, if it raises, or its own. -/
theorem exec_cmp_setFlags {a b : Byte} {s t : State} (h : exec (.cmp a b) s = .next t) (f : Flags) :
    ∃ g, exec (.cmp a b) (s.setFlags f) = .next (t.setFlags g) ∧ (g = f ∨ g = t.flags) := by
  rcases exec_cmp_cases a b with ⟨ra, rb, hcmp⟩ | ⟨info, hraise⟩
  · obtain rfl := Host.Outcome.next.inj ((hcmp s).symm.trans h)
    exact ⟨_, hcmp _, .inr rfl⟩
  · obtain rfl := Host.Outcome.next.inj ((hraise s).symm.trans h)
    exact ⟨f, hraise _, .inl rfl⟩

/-! ### What an instruction and a step can do to the flags -/

theorem exec_flags_cases {i : Instr} {s t : State} (h : exec i s = .next t) :
    t.flags = s.flags ∨ t.flags.ExactlyOne := by
  by_cases hi : ∃ a b, i = .cmp a b
  · obtain ⟨a, b, rfl⟩ := hi
    rcases exec_cmp_cases a b with ⟨ra, rb, hcmp⟩ | ⟨info, hraise⟩
    · obtain rfl := Host.Outcome.next.inj ((hcmp s).symm.trans h)
      exact .inr (compareFlags_exactlyOne _ _)
    · obtain rfl := Host.Outcome.next.inj ((hraise s).symm.trans h)
      exact .inl rfl
  · exact .inl (exec_keeps_flags h fun a b hab => hi ⟨a, b, hab⟩)

/-- A step leaves the flags as they are or sets exactly one. -/
theorem step_flags_cases {s t : State} (h : step s = .next t) : t.flags = s.flags ∨ t.flags.ExactlyOne := by
  rcases step_cases h with ⟨-, rfl⟩ | ⟨-, i, rest, -, hexec⟩ | ⟨-, e, -, hraise⟩
  · exact .inl rfl
  · simpa using exec_flags_cases hexec
  · obtain ⟨k, info, rfl⟩ := raiseDecodeError_next hraise
    exact .inl (by simp)

/-! ### The obligations -/

/-- Settles O34: every instruction but CMP commutes with putting other flags in, and CMP overwrites them or raises. -/
theorem flagsWrittenByCompareReadByJumps : Obligations.FlagsWrittenByCompareReadByJumps := by
  refine ⟨fun i s t h hcmp => exec_keeps_flags h hcmp, fun i s t f h hread => ?_⟩
  by_cases hi : ∃ a b, i = .cmp a b
  · obtain ⟨a, b, rfl⟩ := hi
    obtain ⟨g, hg, hgf⟩ := exec_cmp_setFlags h f
    exact ⟨g, hg, hgf.imp_right fun hgt => ⟨a, b, rfl, hgt⟩⟩
  · have hother : exec i (s.setFlags f) = setResultFlags f (exec i s) :=
      exec_setFlags (fun a b hab => hi ⟨a, b, hab⟩) hread
    rw [h, setResultFlags_next] at hother
    exact ⟨f, hother, .inl rfl⟩

/-- Settles O46: a step leaves the flags as they are or sets exactly one, so it keeps both bounds. -/
theorem flagsAreMutuallyExclusive : Obligations.FlagsAreMutuallyExclusive := by
  refine ⟨rfl, fun a b s t ha hb h => ?_, fun i s t h hcmp => exec_keeps_flags h hcmp, fun s t hs h => ?_,
    fun s t hs h => ?_⟩
  · rw [exec_cmp_of_lt ha hb] at h
    obtain rfl := Host.Outcome.next.inj h
    exact compareFlags_exactlyOne _ _
  · rcases step_flags_cases h with hsame | hone
    · exact hsame ▸ hs
    · exact hone.1
  · rcases step_flags_cases h with hsame | hone
    · exact hsame ▸ hs
    · exact hone

/-- Settles O43, by evaluating the reset state. -/
theorem resetStartsReadyAtZero : Obligations.ResetStartsReadyAtZero := ⟨rfl, rfl⟩

end Sys2Proof.Machine
end

section
/-! The engine cycle (spec/40_engine_cycle.md): what is fetched, which instruction the opcode selects, and where the
program counter goes.

The idea: the decoder and the encoder agree, so "the opcode selects its instruction" is about the bytes at the program
counter, and "the bytes exist" bounds the advance: a decoded instruction lies whole in memory, and the address after it
is at most 256. -/

namespace Sys2Proof

/-! ### The decoder against the encoder -/

/-- The shape that the opcode map gives an opcode is that of instructions which encode to that opcode and as many
operand bytes as its top two bits count. -/
def OpShape.Describes (op : Byte) : OpShape → Prop
  | .none i => operandCount op = 0 ∧ encode i = [op]
  | .one make => operandCount op = 1 ∧ ∀ a, encode (make a) = [op, a]
  | .two make => operandCount op = 2 ∧ ∀ a b, encode (make a b) = [op, a, b]

/-- One case per row of the opcode map. -/
theorem opShape_describes {op : Byte} {shape : OpShape} (h : opShape op = some shape) : shape.Describes op := by
  unfold opShape at h
  split at h
  case h_23 => cases h
  all_goals
    rename_i hop
    cases h
    simp [OpShape.Describes, operandCount, encode, opcodeOf, operandBytes, ← BitVec.toNat_inj, hop]

/-- What decodes is the encoding of the instruction, followed by the rest. -/
theorem eq_encode_append_of_decode {bytes rest : List Byte} {i : Instr} (h : decode bytes = .ok (i, rest)) :
    bytes = encode i ++ rest := by
  unfold decode at h
  repeat' split at h
  all_goals cases h
  all_goals
    obtain ⟨-, hencode⟩ := opShape_describes ‹opShape _ = some _›
    simp [hencode]

theorem decode_encode_append (i : Instr) (rest : List Byte) : decode (encode i ++ rest) = .ok (i, rest) := by
  cases i <;> rfl

theorem decode_of_unknown {op : Byte} (h : known op = false) (rest : List Byte) :
    decode (op :: rest) = .error (.illegalOpcode op) := by
  have hshape : opShape op = none := by simpa [known] using h
  simp [decode, hshape]

/-- A known opcode with as many operand bytes as it asks for is the encoding of an instruction. -/
theorem exists_encode_of_known {op : Byte} {args : List Byte} (h : known op = true)
    (hargs : args.length = operandCount op) : ∃ i, encode i = op :: args := by
  obtain ⟨shape, hshape⟩ := Option.isSome_iff_exists.1 h
  have hdesc := opShape_describes hshape
  cases shape with
  | none i =>
    obtain ⟨hcount, hencode⟩ := hdesc
    obtain rfl := List.length_eq_zero_iff.1 (hargs.trans hcount)
    exact ⟨i, hencode⟩
  | one make =>
    obtain ⟨hcount, hencode⟩ := hdesc
    obtain ⟨a, rfl⟩ := List.length_eq_one_iff.1 (hargs.trans hcount)
    exact ⟨make a, hencode a⟩
  | two make =>
    obtain ⟨hcount, hencode⟩ := hdesc
    obtain ⟨a, b, rfl⟩ := List.length_eq_two.1 (hargs.trans hcount)
    exact ⟨make a b, hencode a b⟩

theorem operandCount_le_two_of_known {op : Byte} (h : known op = true) : operandCount op ≤ 2 := by
  obtain ⟨shape, hshape⟩ := Option.isSome_iff_exists.1 h
  have hdesc := opShape_describes hshape
  cases shape <;> simp [hdesc.1]

/-- The top two bits of an opcode count its operand bytes (spec/30_encoding.md R71). -/
theorem encode_length (i : Instr) : (encode i).length = 1 + operandCount (opcodeOf i) := by
  cases i <;> simp [encode, operandBytes, opcodeOf, operandCount]

end Sys2Proof

namespace Sys2Proof.Machine

/-! ### Fetch -/

/-- With the program counter at an address, the first fetched byte is the one there. -/
theorem fetchBytes_cons {s : State} (h : s.pc.toNat ≤ 255) :
    fetchBytes s = s.memRead (s.pc.setWidth 8) :: bytesFrom s.mem 2 (s.pc.toNat + 1) := by
  have hpc : s.pc.toNat < 256 := by omega
  simp [fetchBytes, bytesFrom, State.memRead, hpc, Nat.mod_eq_of_lt hpc]

theorem fetchBytes_past_end {s : State} (h : 255 < s.pc.toNat) : fetchBytes s = [] := by
  have hpc : ¬ s.pc.toNat < 256 := by omega
  simp [fetchBytes, bytesFrom, hpc]

/-- Bytes that all exist are the memory's, in address order. -/
theorem take_bytesFrom (s : State) {m n addr : Nat} (hn : n ≤ m) (ha : addr + n ≤ 256) :
    (bytesFrom s.mem m addr).take n = (List.range n).map fun k => s.memRead (BitVec.ofNat 8 (addr + k)) := by
  refine List.ext_getElem? fun k => ?_
  by_cases hk : k < n
  · have haddr : addr + k < 256 := by omega
    have hread := bytesFrom_getElem? s.mem m addr k (by omega) haddr
    simp [hk, hread, State.memRead, Nat.mod_eq_of_lt haddr]
  · simp [hk]

/-- A decoded instruction lies whole in memory: the address after it is at most 256 (spec/20_memory.md R56). -/
theorem next_address_le {s : State} {i : Instr} {rest : List Byte} (h : decode (fetchBytes s) = .ok (i, rest)) :
    s.pc.toNat + 1 + operandCount (opcodeOf i) ≤ 256 := by
  have hlen := congrArg List.length (eq_encode_append_of_decode h)
  rw [fetchBytes_length, List.length_append, encode_length] at hlen
  omega

/-! ### The step, from what decode answers -/

theorem step_of_not_halted {s : State} (hs : s.status ≠ .halted) : step s = runInstr s.start := by
  cases hstatus : s.status with
  | halted => exact absurd hstatus hs
  | ready | running => simp [step, hstatus]

theorem step_of_decode_ok {s : State} {i : Instr} {rest : List Byte} (hs : s.status ≠ .halted)
    (h : decode (fetchBytes s) = .ok (i, rest)) : step s = exec i s.start := by
  rw [step_of_not_halted hs, runInstr, fetchBytes_start, h]

theorem step_of_decode_error {s : State} {e : DecodeError} (hs : s.status ≠ .halted)
    (h : decode (fetchBytes s) = .error e) : step s = raiseDecodeError e s.start := by
  rw [step_of_not_halted hs, runInstr, fetchBytes_start, h]

theorem raise_start (k : ErrorKind) (info : Word9) (s : State) :
    raise k info s.start = .next { s with fault := some ⟨k, s.pc, info⟩, running := false, status := .halted } := by
  rw [raise_eq, State.start_raised, State.raised_eq]

/-! ### Operations that end without an error -/

theorem withReg_completed {v : Byte} {s t : State} {body : RegIndex → Result} (h : withReg v s body = .next t)
    (ht : t.fault = none) : ∃ r, regOf v = some r ∧ body r = .next t := by
  rcases withReg_next h with hgo | ⟨-, rfl⟩
  · exact hgo
  · cases ht

theorem withPushSlot_completed {s t : State} {body : State → Result} (h : withPushSlot s body = .next t)
    (ht : t.fault = none) : body (s.setSp (s.sp - 1#8)) = .next t := by
  rcases withPushSlot_next h with ⟨-, hgo⟩ | ⟨-, rfl⟩
  · exact hgo
  · cases ht

theorem withPopped_completed {s t : State} {body : Byte → Result} (h : withPopped s body = .next t)
    (ht : t.fault = none) : body (s.memRead s.sp) = .next t := by
  rcases withPopped_next h with ⟨-, hgo⟩ | ⟨-, rfl⟩
  · exact hgo
  · cases ht

/-- A choice between an error and going on that ends without an error went on. -/
theorem ite_raise_completed {c : Prop} [Decidable c] {k : ErrorKind} {info : Word9} {s t : State} {x : Result}
    (h : (if c then raise k info s else x) = .next t) (ht : t.fault = none) : x = .next t := by
  split at h
  · obtain rfl := raise_next h; cases ht
  · exact h

/-! ### Where the program counter goes -/

theorem aluWriteBack_pc {ra rb : RegIndex} {len : Nat} {s t : State} {out : AluOut}
    (h : aluWriteBack ra rb len s out = .next t) (ht : t.fault = none) : t.pc = s.pc + BitVec.ofNat 9 len := by
  rcases aluWriteBack_next h with ⟨v, -, rfl⟩ | ⟨f, -, rfl⟩ | ⟨-, rfl⟩
  · rfl
  · rfl
  · cases ht

theorem execAluRR_pc {op : AluOp} {a b : Byte} {s t : State} (h : execAluRR op a b s = .next t)
    (ht : t.fault = none) : t.pc = s.pc + 3#9 := by
  obtain ⟨ra, -, h⟩ := withReg_completed h ht
  obtain ⟨rb, -, h⟩ := withReg_completed h ht
  exact aluWriteBack_pc h ht

theorem execNot_pc {a : Byte} {s t : State} (h : execNot a s = .next t) (ht : t.fault = none) :
    t.pc = s.pc + 2#9 := by
  obtain ⟨ra, -, h⟩ := withReg_completed h ht
  exact aluWriteBack_pc h ht

theorem execPush_pc {a : Byte} {s t : State} (h : execPush a s = .next t) (ht : t.fault = none) :
    t.pc = s.pc + 2#9 := by
  obtain ⟨ra, -, h⟩ := withReg_completed h ht
  have hgo := withPushSlot_completed h ht
  obtain rfl := Host.Outcome.next.inj hgo
  rfl

theorem execPop_pc {a : Byte} {s t : State} (h : execPop a s = .next t) (ht : t.fault = none) :
    t.pc = s.pc + 2#9 := by
  obtain ⟨ra, -, h⟩ := withReg_completed h ht
  obtain rfl := Host.Outcome.next.inj (ite_raise_completed (withPopped_completed h ht) ht)
  rfl

theorem execPrn_pc {a : Byte} {s t : State} (h : execPrn a s = .next t) (ht : t.fault = none) :
    t.pc = s.pc + 2#9 := by
  obtain ⟨ra, -, h⟩ := withReg_completed h ht
  obtain rfl := Host.Outcome.next.inj h
  rfl

theorem execLdi_pc {a b : Byte} {s t : State} (h : execLdi a b s = .next t) (ht : t.fault = none) :
    t.pc = s.pc + 3#9 := by
  obtain ⟨ra, -, h⟩ := withReg_completed h ht
  obtain rfl := Host.Outcome.next.inj h
  rfl

theorem execRet_pc {s t : State} (h : execRet s = .next t) (ht : t.fault = none) :
    t.pc = zext9 (s.memRead s.sp) := by
  obtain rfl := Host.Outcome.next.inj (withPopped_completed h ht)
  rfl

/-- CALL reads its register after the push, so the target is the register's value in the next state too. -/
theorem execCall_pc {a : Byte} {s t : State} (h : execCall a s = .next t) (ht : t.fault = none) :
    ∃ r, regOf a = some r ∧ t.pc = zext9 (t.readReg r) := by
  obtain ⟨ra, hra, h⟩ := withReg_completed h ht
  have hpush := ite_raise_completed h ht
  have hgo := withPushSlot_completed hpush ht
  obtain rfl := Host.Outcome.next.inj hgo
  exact ⟨ra, hra, rfl⟩

theorem jumpIf_pc {taken : Bool} {a : Byte} {s t : State} (h : jumpIf taken a s = .next t) (ht : t.fault = none) :
    (∃ r, regOf a = some r ∧ t.pc = zext9 (t.readReg r)) ∨ (taken = false ∧ t.pc = s.pc + 2#9) := by
  obtain ⟨ra, hra, h⟩ := withReg_completed h ht
  cases taken <;> obtain rfl := Host.Outcome.next.inj h
  · exact .inr ⟨rfl, rfl⟩
  · exact .inl ⟨ra, hra, rfl⟩

/-- An instruction with opcode bit 4 clear advances past its own bytes (spec/40_engine_cycle.md R106). -/
theorem exec_pc_of_not_setsPc {i : Instr} {s t : State} (h : exec i s = .next t) (ht : t.fault = none)
    (hset : setsPc (opcodeOf i) = false) : t.pc = s.pc + BitVec.ofNat 9 (encode i).length := by
  cases i with
  | hlt => obtain rfl := Host.Outcome.next.inj h; rfl
  | push a => exact execPush_pc h ht
  | pop a => exact execPop_pc h ht
  | prn a => exact execPrn_pc h ht
  | not a => exact execNot_pc h ht
  | ldi a b => exact execLdi_pc h ht
  | add a b | sub a b | mul a b | div a b | mod a b | cmp a b | and a b | or a b | xor a b | shl a b | shr a b =>
    exact execAluRR_pc h ht
  | ret | call a | jmp a | jeq a | jne a => simp [setsPc, opcodeOf] at hset

/-- An instruction with opcode bit 4 set assigns the popped byte, its register's value or, for JEQ and JNE, the address
after it (spec/40_engine_cycle.md R106). -/
theorem exec_pc_of_setsPc {i : Instr} {s t : State} (h : exec i s = .next t) (ht : t.fault = none)
    (hset : setsPc (opcodeOf i) = true) :
    (i = .ret ∧ t.pc = zext9 (s.memRead s.sp)) ∨
    (∃ a r, regOf a = some r ∧ (i = .call a ∨ i = .jmp a ∨ i = .jeq a ∨ i = .jne a) ∧ t.pc = zext9 (t.readReg r)) ∨
    (∃ a, (i = .jeq a ∨ i = .jne a) ∧ t.pc = s.pc + 2#9) := by
  cases i with
  | ret => exact .inl ⟨rfl, execRet_pc h ht⟩
  | call a =>
    obtain ⟨r, hr, hpc⟩ := execCall_pc h ht
    exact .inr (.inl ⟨a, r, hr, .inl rfl, hpc⟩)
  | jmp a =>
    rcases jumpIf_pc h ht with ⟨r, hr, hpc⟩ | ⟨htaken, -⟩
    · exact .inr (.inl ⟨a, r, hr, .inr (.inl rfl), hpc⟩)
    · cases htaken
  | jeq a =>
    rcases jumpIf_pc h ht with ⟨r, hr, hpc⟩ | ⟨-, hpc⟩
    · exact .inr (.inl ⟨a, r, hr, .inr (.inr (.inl rfl)), hpc⟩)
    · exact .inr (.inr ⟨a, .inl rfl, hpc⟩)
  | jne a =>
    rcases jumpIf_pc h ht with ⟨r, hr, hpc⟩ | ⟨-, hpc⟩
    · exact .inr (.inl ⟨a, r, hr, .inr (.inr (.inr rfl)), hpc⟩)
    · exact .inr (.inr ⟨a, .inr rfl, hpc⟩)
  | hlt | push a | pop a | prn a | not a | ldi a b | add a b | sub a b | mul a b | div a b | mod a b | cmp a b
  | and a b | or a b | xor a b | shl a b | shr a b => simp [setsPc, opcodeOf] at hset

theorem toNat_pc_add {pc : Word9} {n : Nat} (h : pc.toNat + n ≤ 256) :
    (pc + BitVec.ofNat 9 n).toNat = pc.toNat + n := by
  rw [BitVec.toNat_add, BitVec.toNat_ofNat]
  omega

/-! ### The obligations -/

/-- Settles O7: at most 0xFF the look-ahead begins with the byte there; past it there is no byte to decode. -/
theorem fetchPastEndRaises : Obligations.FetchPastEndRaises := by
  refine fun s hs => ⟨fun hpc => by simp [fetchBytes_cons hpc], fun hpc => ?_⟩
  have hdecode : decode (fetchBytes s) = .error .noOpcode := by rw [fetchBytes_past_end hpc]; rfl
  rw [step_of_decode_error hs hdecode, raiseDecodeError, raise_start, State.start_pc]

/-- Settles O8: the bytes at the program counter begin with an unknown opcode, or with an instruction's encoding, which
decodes to it. -/
theorem opcodeSelectsInstruction : Obligations.OpcodeSelectsInstruction := by
  intro s hs hpc
  have hfetch := fetchBytes_cons hpc
  generalize s.memRead (s.pc.setWidth 8) = op at hfetch ⊢
  refine ⟨fun hunknown => ?_, fun hknown hfits => ?_⟩
  · have hdecode : decode (fetchBytes s) = .error (.illegalOpcode op) := by rw [hfetch, decode_of_unknown hunknown]
    exact (step_of_decode_error hs hdecode).trans (raise_start _ _ s)
  · have hcount := operandCount_le_two_of_known hknown
    have hargs := take_bytesFrom s (addr := s.pc.toNat + 1) hcount (by omega)
    have hlen := congrArg List.length hargs
    rw [List.length_map, List.length_range] at hlen
    obtain ⟨i, hi⟩ := exists_encode_of_known hknown hlen
    obtain ⟨hop, hbytes⟩ := List.cons.inj hi
    have hsplit : fetchBytes s = encode i ++ (bytesFrom s.mem 2 (s.pc.toNat + 1)).drop (operandCount op) := by
      rw [hfetch, hi, List.cons_append, List.take_append_drop]
    exact ⟨i, hop, hbytes.trans hargs, step_of_decode_ok hs (hsplit ▸ decode_encode_append i _)⟩

/-- Settles O10: the instruction says where the program counter goes, and since it lies whole in memory no advance
wraps. -/
theorem pcSequencedOncePerStep : Obligations.PcSequencedOncePerStep := by
  rintro s t i rest - hs hdecode hstep ht
  have hexec : exec i s.start = .next t := (step_of_decode_ok hs hdecode).symm.trans hstep
  have hfits := next_address_le hdecode
  refine ⟨fun hset => ?_, fun hset => ?_⟩
  · have hpc := exec_pc_of_not_setsPc hexec ht hset
    rw [State.start_pc, encode_length] at hpc
    rw [hpc, toNat_pc_add (by omega)]
    omega
  · have hpc := exec_pc_of_setsPc hexec ht hset
    rw [State.start_memRead, State.start_sp, State.start_pc] at hpc
    refine hpc.imp_right (Or.imp_right ?_)
    rintro ⟨a, hi, hpc⟩
    have hcount : operandCount (opcodeOf i) = 1 := by rcases hi with rfl | rfl <;> simp [opcodeOf, operandCount]
    exact ⟨a, hi, hpc ▸ toNat_pc_add (by omega)⟩

end Sys2Proof.Machine
end

section
/-! The two-register ALU instructions with a result (spec/41_alu.md R121 to R123, R127 to R129).

They differ in what `alu` answers alone: the operand check, the one register write and the advance past three bytes are
shared, and so is what they leave unchanged (R120). So each result statement is an arithmetic fact about `alu`. -/

namespace Sys2Proof.Machine

/-! ### What the shared meaning does -/

theorem keepsRegs_writeReg (s : State) (i : RegIndex) (v : Byte) : KeepsRegs s (s.writeReg i v) [i] :=
  fun r hr => s.readReg_writeReg_other i r v (List.ne_of_not_mem_cons hr)

/-- On legal indices, where the ALU answers a result, that result is written and the program counter advances. -/
theorem execAluRR_of_result {op : AluOp} {a b : Byte} (ha : a.toNat < 8) (hb : b.toNat < 8) {s : State} {v : Byte}
    (h : alu op (s.readReg ⟨a.toNat, ha⟩) (s.readReg ⟨b.toNat, hb⟩) = .result v) :
    execAluRR op a b s = .next ((s.writeReg ⟨a.toNat, ha⟩ v).advance 3) := by
  rw [execAluRR, withRegs_of_lt ha hb, h, aluWriteBack_result]

/-- An instruction that runs the ALU over two registers has the result `f` if the ALU always answers `f`. -/
theorem aluRRResult_of_alu {make : Byte → Byte → Instr} {opcode : Byte} {f : Nat → Nat → Nat} (op : AluOp)
    (hencode : ∀ a b, encode (make a b) = [opcode, a, b]) (hexec : ∀ a b s, exec (make a b) s = execAluRR op a b s)
    (halu : ∀ va vb, ∃ v, alu op va vb = .result v ∧ v.toNat = f va.toNat vb.toNat) :
    AluRRResult make opcode f := by
  intro a b ha hb s
  obtain ⟨v, hv, hvalue⟩ := halu (s.readReg ⟨a.toNat, ha⟩) (s.readReg ⟨b.toNat, hb⟩)
  refine ⟨hencode a b, _, (hexec a b s).trans (execAluRR_of_result ha hb hv), ?_, rfl, ?_⟩
  · rw [State.advance_readReg, State.readReg_writeReg_same, hvalue]
  · exact ⟨keepsRegs_writeReg s _ v, fun _ => rfl, ⟨rfl, rfl⟩, ⟨rfl, rfl, rfl⟩⟩

/-! ### The obligations -/

/-- Settles O16: the ALU wraps the exact sum, difference and product to 8 bits. -/
theorem arithmeticResults : Obligations.ArithmeticResults := by
  refine ⟨aluRRResult_of_alu .add (fun _ _ => rfl) (fun _ _ _ => rfl) fun va vb => ⟨_, rfl, ?add⟩,
    aluRRResult_of_alu .sub (fun _ _ => rfl) (fun _ _ _ => rfl) fun va vb => ⟨_, rfl, ?sub⟩,
    aluRRResult_of_alu .mul (fun _ _ => rfl) (fun _ _ _ => rfl) fun va vb => ⟨_, rfl, ?mul⟩⟩
  case add => exact wrap8_toNat _
  case sub => exact BitVec.toNat_ofInt ..
  case mul => exact wrap8_toNat _

/-- Settles O18: a bitwise operation on bytes is that operation on their unsigned values. -/
theorem bitwiseResults : Obligations.BitwiseResults := by
  refine ⟨aluRRResult_of_alu .and (fun _ _ => rfl) (fun _ _ _ => rfl) fun va vb => ⟨_, rfl, ?and⟩,
    aluRRResult_of_alu .or (fun _ _ => rfl) (fun _ _ _ => rfl) fun va vb => ⟨_, rfl, ?or⟩,
    aluRRResult_of_alu .xor (fun _ _ => rfl) (fun _ _ _ => rfl) fun va vb => ⟨_, rfl, ?xor⟩⟩
  case and => exact BitVec.toNat_and va vb
  case or => exact BitVec.toNat_or va vb
  case xor => exact BitVec.toNat_xor va vb

end Sys2Proof.Machine
end

section
/-! The register-indirect jumps (spec/43_control_flow.md R170 to R173).

On a legal index a jump writes the program counter alone; taken or not only chooses the value. So JMP, JEQ and JNE differ
in their opcode and their condition, and share one result lemma. -/

namespace Sys2Proof.Machine

/-! ### What the shared meaning does -/

/-- Writing the program counter leaves everything else as it is. -/
theorem setPc_frame (s : State) (target : Word9) :
    KeepsRegs s (s.setPc target) [] ∧ KeepsMem s (s.setPc target) ∧ KeepsFlagsOut s (s.setPc target) ∧
      KeepsStatus s (s.setPc target) :=
  ⟨fun _ _ => rfl, fun _ => rfl, ⟨rfl, rfl⟩, ⟨rfl, rfl, rfl⟩⟩

/-- On a legal index, taken or not, a jump is one write of the program counter. -/
theorem jumpIf_of_lt {a : Byte} (ha : a.toNat < 8) (taken : Bool) (s : State) :
    jumpIf taken a s =
      .next (s.setPc (if taken then (s.readReg ⟨a.toNat, ha⟩).setWidth 9 else s.pc + 2#9)) := by
  rw [jumpIf, withReg_of_lt ha]
  cases taken with
  | true => rfl
  | false => rfl

/-- An instruction that is a jump under the condition `taken` has the result of such a jump. -/
theorem jumpResult_of_jumpIf {make : Byte → Instr} {opcode : Byte} {taken : State → Bool}
    (hencode : ∀ a, encode (make a) = [opcode, a]) (hexec : ∀ a s, exec (make a) s = jumpIf (taken s) a s) :
    JumpResult make opcode taken :=
  fun a ha s => ⟨hencode a, _, (hexec a s).trans (jumpIf_of_lt ha (taken s) s), rfl, setPc_frame s _⟩

/-! ### The obligations -/

/-- Settles O26: JMP is the jump that is always taken. -/
theorem jumpGoesToRegister : Obligations.JumpGoesToRegister :=
  jumpResult_of_jumpIf (fun _ => rfl) (fun _ _ => rfl)

/-- Settles O27: JEQ is the jump taken on the Equal flag, JNE the one taken on its complement. -/
theorem conditionalJumpsFollowEqual : Obligations.ConditionalJumpsFollowEqual :=
  ⟨jumpResult_of_jumpIf (fun _ => rfl) (fun _ _ => rfl), jumpResult_of_jumpIf (fun _ => rfl) (fun _ _ => rfl)⟩

end Sys2Proof.Machine
end

section
/-! LDI and PRN (spec/44_ldi_prn_hlt.md R181, R182).

On a legal index each is one write followed by the fixed advance: LDI writes the register and nothing else, PRN the
output and nothing else. -/

namespace Sys2Proof.Machine

/-! ### What the instructions do on a legal index -/

/-- The immediate is put in the register as it is: no check looks at it, nor at which register it is. -/
theorem execLdi_of_lt {a : Byte} (ha : a.toNat < 8) (b : Byte) (s : State) :
    execLdi a b s = .next ((s.writeReg ⟨a.toNat, ha⟩ b).advance 3) := by
  rw [execLdi, withReg_of_lt ha]

theorem execPrn_of_lt {a : Byte} (ha : a.toNat < 8) (s : State) :
    execPrn a s = .next ((s.output (s.readReg ⟨a.toNat, ha⟩)).advance 2) := by
  rw [execPrn, withReg_of_lt ha]

/-! ### The obligations -/

/-- Settles O28: the one register write is the immediate's, and the advance leaves the registers as they are. -/
theorem loadImmediateResult : Obligations.LoadImmediateResult := by
  intro a b ha s
  refine ⟨rfl, _, execLdi_of_lt ha b s, ?result, rfl, ?frame⟩
  case result => rw [State.advance_readReg, State.readReg_writeReg_same]
  case frame => exact ⟨keepsRegs_writeReg s _ b, fun _ => rfl, ⟨rfl, rfl⟩, ⟨rfl, rfl, rfl⟩⟩

/-- Settles O29: the output gains one value at its end, so its text gains that value's text at its end. -/
theorem printAppendsRegister : Obligations.PrintAppendsRegister := by
  intro a ha s
  refine ⟨rfl, _, execPrn_of_lt ha s, rfl, ?text, rfl, ?frame⟩
  case text => exact List.map_append
  case frame => exact ⟨fun _ _ => rfl, fun _ => rfl, rfl, ⟨rfl, rfl, rfl⟩⟩

end Sys2Proof.Machine
end

section
/-! The entry into a fatal error (spec/60_exceptions.md R204). -/

namespace Sys2Proof.Machine

/-- Settles O11: `raise` answers the raised state, which differs from the old one in its record, RUNNING and STATE. -/
theorem errorEntryWritesRecord : Obligations.ErrorEntryWritesRecord := by
  intro k info s
  rw [raise_eq, State.raised_eq]

end Sys2Proof.Machine
end

section
/-! The decoder on all bytes (spec/30_encoding.md): which bytes are opcodes, and what every other sequence of bytes
answers. The round trip with the encoder is proved above; here it is put together with the set of the opcodes. -/

namespace Sys2Proof

/-! ### The set of the opcodes -/

/-- A byte is known exactly if it is one of the 22 (spec/30_encoding.md R78, R81). -/
theorem known_iff_mem {op : Byte} :
    known op = true ↔
      op ∈ [0x01#8, 0x11#8, 0x45#8, 0x46#8, 0x47#8, 0x50#8, 0x54#8, 0x55#8, 0x56#8, 0x69#8, 0x82#8, 0xA0#8, 0xA1#8,
            0xA2#8, 0xA3#8, 0xA4#8, 0xA7#8, 0xA8#8, 0xAA#8, 0xAB#8, 0xAC#8, 0xAD#8] := by
  constructor
  · intro h
    obtain ⟨i, hi⟩ := exists_encode_of_known (args := List.replicate (operandCount op) 0#8) h List.length_replicate
    obtain rfl : opcodeOf i = op := (List.cons.inj hi).1
    cases i <;> simp [opcodeOf]
  · intro h
    fin_cases h <;> rfl

/-! ### What the decoder answers where there is no instruction -/

/-- An opcode byte is rejected exactly if it is unknown, whatever follows. -/
theorem decode_illegalOpcode_iff {op : Byte} {rest : List Byte} :
    decode (op :: rest) = .error (.illegalOpcode op) ↔ known op = false := by
  refine ⟨fun h => ?_, fun h => decode_of_unknown h rest⟩
  cases hshape : opShape op with
  | none => simp [known, hshape]
  | some shape =>
    simp only [decode, hshape] at h
    repeat' split at h
    all_goals simp_all

/-- A known opcode with too few operand bytes: the first one missing is reported (spec/40_engine_cycle.md R103). -/
theorem decode_of_missing {op : Byte} {args : List Byte} (h : known op = true)
    (hargs : args.length < operandCount op) :
    decode (op :: args) = .error (.missingOperand (args.length + 1)) := by
  obtain ⟨shape, hshape⟩ := Option.isSome_iff_exists.1 h
  have hdesc := opShape_describes hshape
  cases shape with
  | none i => exact absurd hargs (by simp [hdesc.1])
  | one make =>
    obtain rfl : args = [] := List.length_eq_zero_iff.1 (by have := hdesc.1; omega)
    simp [decode, hshape]
  | two make =>
    match args, hdesc.1 ▸ hargs with
    | [], _ => simp [decode, hshape]
    | [a], _ => simp [decode, hshape]

/-! ### The obligations -/

/-- Settles O2, by the two halves of the round trip. -/
theorem decodeExactlyEncodings : Obligations.DecodeExactlyEncodings :=
  fun _ rest i => ⟨eq_encode_append_of_decode, fun h => h ▸ decode_encode_append i rest⟩

/-- Settles O1: each row is one instruction's encoding read back. -/
theorem opcodeMapDecodes : Obligations.OpcodeMapDecodes := fun a b rest =>
  ⟨decode_encode_append .hlt rest, decode_encode_append .ret rest, decode_encode_append (.push a) rest,
    decode_encode_append (.pop a) rest, decode_encode_append (.prn a) rest, decode_encode_append (.call a) rest,
    decode_encode_append (.jmp a) rest, decode_encode_append (.jeq a) rest, decode_encode_append (.jne a) rest,
    decode_encode_append (.not a) rest, decode_encode_append (.ldi a b) rest, decode_encode_append (.add a b) rest,
    decode_encode_append (.sub a b) rest, decode_encode_append (.mul a b) rest, decode_encode_append (.div a b) rest,
    decode_encode_append (.mod a b) rest, decode_encode_append (.cmp a b) rest, decode_encode_append (.and a b) rest,
    decode_encode_append (.or a b) rest, decode_encode_append (.xor a b) rest, decode_encode_append (.shl a b) rest,
    decode_encode_append (.shr a b) rest⟩

/-- Settles O3: an opcode is rejected exactly if it is unknown, and the known ones are those listed; the count is a
computation over the 256 bytes. -/
theorem unknownOpcodesRejected : Obligations.UnknownOpcodesRejected := by
  refine ⟨fun op rest => ?_, by decide +kernel⟩
  rw [decode_illegalOpcode_iff, ← known_iff_mem, Bool.not_eq_true]

/-- Settles O4, row by row of the opcode map: the count of operand bytes is bits 7:6, as for the encoding's length. -/
theorem opcodeBitsDescribeInstruction : Obligations.OpcodeBitsDescribeInstruction := by
  intro i
  have hlen := encode_length i
  rw [encode, List.length_cons] at hlen
  refine ⟨by omega, ?count, ?alu⟩
  case count => cases i <;> rfl
  case alu => cases i <;> simp [isAlu, opcodeOf]

end Sys2Proof
end

section
/-! Fetch at the program counter, and the step on what was fetched (spec/40_engine_cycle.md R100 to R103). -/

namespace Sys2Proof.Machine

/-- Settles O6: the look-ahead holds the byte at each of its places, and its length is the number of places that
exist. -/
theorem fetchReadsMemoryAtPc : Obligations.FetchReadsMemoryAtPc := by
  intro s k
  by_cases hk : k < 3 ∧ s.pc.toNat + k < 256
  · obtain ⟨hk3, hmem⟩ := hk
    have hread := bytesFrom_getElem? s.mem 3 s.pc.toNat k hk3 hmem
    simpa [fetchBytes, hk3, hmem, State.memRead, Nat.mod_eq_of_lt hmem] using hread
  · have hlen := fetchBytes_length s
    rw [if_neg hk, List.getElem?_eq_none_iff]
    omega

/-- Settles O5: the state the step runs the instruction in is the started one. -/
theorem stepRunsDecodedInstruction : Obligations.StepRunsDecodedInstruction := by
  intro s i rest hs hdecode
  rw [step_of_decode_ok hs hdecode, State.start_eq]

/-- The bytes after the opcode that exist are fewer than the opcode asks for exactly by those past the last cell, so
the first missing address is 0x100. -/
theorem decode_of_operand_past_end {s : State} (hpc : s.pc.toNat ≤ 255)
    (hknown : known (s.memRead (s.pc.setWidth 8)) = true)
    (hpast : 255 < s.pc.toNat + operandCount (s.memRead (s.pc.setWidth 8))) :
    ∃ k, decode (fetchBytes s) = .error (.missingOperand k) ∧ s.pcPlus k = 256 := by
  have hcount := operandCount_le_two_of_known hknown
  have hlen : (bytesFrom s.mem 2 (s.pc.toNat + 1)).length = min 2 (256 - (s.pc.toNat + 1)) := bytesFrom_length ..
  rw [fetchBytes_cons hpc]
  refine ⟨_, decode_of_missing hknown (by omega), ?_⟩
  rw [State.pcPlus]
  omega

/-- Settles O9: the decoder reports the operand byte that would be at 0x100. -/
theorem operandPastEndRaises : Obligations.OperandPastEndRaises := by
  intro s hs hpc hknown hpast
  obtain ⟨k, hdecode, haddr⟩ := decode_of_operand_past_end hpc hknown hpast
  have hstart : s.start.pcPlus k = 256 := by rwa [State.pcPlus, State.start_pc]
  rw [step_of_decode_error hs hdecode, raiseDecodeError, hstart, raise_start]

end Sys2Proof.Machine
end

section
/-! The errors of the operand forms and of the stack (spec/40_engine_cycle.md R104; spec/42_stack_call.md R150): each
check comes before anything is written, so what it raises is the state with the record alone. -/

namespace Sys2Proof.Machine

/-! ### Register indices -/

/-- The second index is checked where the first is legal. -/
theorem withRegs_of_second_le {a b : Byte} (ha : a.toNat < 8) (hb : 8 ≤ b.toNat) (s : State)
    (body : RegIndex → RegIndex → Result) :
    withRegs a b s body = .next (s.raised .outOfBounds (zext9 b)) :=
  (withReg_of_lt ha s _).trans (withReg_of_le hb s _)

/-- Settles O12: every instruction with a register operand checks its first byte before it looks at anything else, and
the two-register ones check the second byte next. -/
theorem registerIndexAboveSevenRaises : Obligations.RegisterIndexAboveSevenRaises := by
  refine fun a b s => ⟨fun ha i hi => ?_, fun ha hb i hi => ?_⟩
  · fin_cases hi <;> exact withReg_of_le ha s _
  · fin_cases hi <;> exact withRegs_of_second_le ha hb s _

/-! ### The stack instructions, one equation for each way they can end -/

theorem execPush_of_empty {a : Byte} (ha : a.toNat < 8) {s : State} (hsp : s.sp = 0x00#8) :
    execPush a s = .next (s.raised .stackFault 0x000#9) :=
  (withReg_of_lt ha s _).trans (withPushSlot_zero hsp _)

/-- The register is read after the decrement, and the push has not yet been written then. -/
theorem execPush_of_pos {a : Byte} (ha : a.toNat < 8) {s : State} (hsp : s.sp ≠ 0x00#8) :
    execPush a s = .next (((s.setSp (s.sp - 1#8)).memWrite (s.sp - 1#8)
      ((s.setSp (s.sp - 1#8)).readReg ⟨a.toNat, ha⟩)).advance 2) := by
  rw [execPush, withReg_of_lt ha, withPushSlot_pos hsp, State.sp_setSp]

theorem execCall_of_past_end {a : Byte} (ha : a.toNat < 8) {s : State} (hpc : 255 < s.pcPlus 2) :
    execCall a s = .next (s.raised .outOfBounds (BitVec.ofNat 9 (s.pcPlus 2))) :=
  (withReg_of_lt ha s _).trans (if_pos hpc)

theorem execCall_of_empty {a : Byte} (ha : a.toNat < 8) {s : State} (hpc : ¬ 255 < s.pcPlus 2) (hsp : s.sp = 0x00#8) :
    execCall a s = .next (s.raised .stackFault 0x000#9) :=
  (withReg_of_lt ha s _).trans ((if_neg hpc).trans (withPushSlot_zero hsp _))

/-- The register is read after the push, which writes no register but the stack pointer. -/
theorem execCall_of_fits {a : Byte} (ha : a.toNat < 8) {s : State} (hpc : ¬ 255 < s.pcPlus 2) (hsp : s.sp ≠ 0x00#8) :
    execCall a s = .next (((s.setSp (s.sp - 1#8)).memWrite (s.sp - 1#8) (BitVec.ofNat 8 (s.pcPlus 2))).setPc
      (zext9 ((s.setSp (s.sp - 1#8)).readReg ⟨a.toNat, ha⟩))) := by
  rw [execCall, withReg_of_lt ha, if_neg hpc, withPushSlot_pos hsp, State.sp_setSp]
  rfl

theorem execPop_of_top {a : Byte} (ha : a.toNat < 8) {s : State} (hsp : s.sp = 0xFF#8) :
    execPop a s = .next (s.raised .stackFault 0x0FF#9) :=
  (withReg_of_lt ha s _).trans (withPopped_top hsp _)

theorem execPop_of_sp_overflow {a : Byte} (ha : a.toNat < 8) {s : State} (hsp : s.sp ≠ 0xFF#8)
    (hv : (⟨a.toNat, ha⟩ : RegIndex) = Config.spIndex ∧ s.memRead s.sp = 0xFF#8) :
    execPop a s = .next (s.raised .stackFault 0x0FF#9) := by
  rw [execPop, withReg_of_lt ha, withPopped_below hsp, if_pos hv, raise_eq, hv.2]
  rfl

/-- The popped byte is written before the stack pointer moves, which POP R7 sees. -/
theorem execPop_of_below {a : Byte} (ha : a.toNat < 8) {s : State} (hsp : s.sp ≠ 0xFF#8)
    (hv : ¬ ((⟨a.toNat, ha⟩ : RegIndex) = Config.spIndex ∧ s.memRead s.sp = 0xFF#8)) :
    execPop a s = .next (((s.writeReg ⟨a.toNat, ha⟩ (s.memRead s.sp)).setSp
      ((s.writeReg ⟨a.toNat, ha⟩ (s.memRead s.sp)).sp + 1#8)).advance 2) := by
  rw [execPop, withReg_of_lt ha, withPopped_below hsp, if_neg hv]

theorem execRet_of_top {s : State} (hsp : s.sp = 0xFF#8) : execRet s = .next (s.raised .stackFault 0x0FF#9) :=
  withPopped_top hsp _

theorem execRet_of_below {s : State} (hsp : s.sp ≠ 0xFF#8) :
    execRet s = .next ((s.setPc (zext9 (s.memRead s.sp))).setSp (s.sp + 1#8)) :=
  withPopped_below hsp _

/-! ### The obligations on their errors -/

/-- Settles O13, by the equations of the stack instructions at the two ends of the stack pointer's range. -/
theorem stackFaultConditions : Obligations.StackFaultConditions := by
  intro a s ha
  refine ⟨fun hsp => ⟨execPush_of_empty ha hsp, fun hpc => execCall_of_empty ha (Nat.not_lt.2 hpc) hsp⟩,
    fun hsp => ⟨execPop_of_top ha hsp, execRet_of_top hsp⟩, fun hsp hv => ?_⟩
  exact execPop_of_sp_overflow (by decide) hsp ⟨rfl, hv⟩

/-- Settles O14: the return address is looked at before the stack pointer. -/
theorem callAtTopOfMemoryRaises : Obligations.CallAtTopOfMemoryRaises := by
  intro a s ha hpc
  have haddr : s.pcPlus 2 = 256 := by rw [State.pcPlus, hpc]; rfl
  refine (execCall_of_past_end ha (by omega)).trans ?_
  rw [haddr, State.raised_eq, hpc]

end Sys2Proof.Machine
end

section
/-! The results of the stack instructions where they complete (spec/42_stack_call.md R151 to R154). The equations above
say what each one writes; here is what the state reads as afterwards. -/

namespace Sys2Proof.Machine

/-! ### What a move of the stack pointer and a push leave -/

theorem regIndex_eq_seven_iff {a : Byte} (ha : a.toNat < 8) : (⟨a.toNat, ha⟩ : RegIndex) = 7 ↔ a = 7#8 := by
  rw [Fin.ext_iff, ← BitVec.toNat_inj]
  rfl

theorem keepsRegs_setSp (s : State) (v : Byte) : KeepsRegs s (s.setSp v) [7] :=
  keepsRegs_writeReg s Config.spIndex v

theorem keepsMemExcept_memWrite (s : State) (slot v : Byte) : KeepsMemExcept s (s.memWrite slot v) slot := by
  intro addr haddr
  rw [State.memRead_memWrite, if_neg haddr]

/-- What PUSH and CALL read from their register after the decrement (D12). -/
theorem readReg_setSp_of_byte {a : Byte} (ha : a.toNat < 8) (s : State) (v : Byte) :
    (s.setSp v).readReg ⟨a.toNat, ha⟩ = if a = 7#8 then v else s.readReg ⟨a.toNat, ha⟩ := by
  simp only [State.readReg_setSp, regIndex_eq_seven_iff]

/-- What POP leaves: its register is written first, then the stack pointer. -/
theorem keepsRegs_writeReg_setSp (s : State) (r : RegIndex) (v w : Byte) :
    KeepsRegs s ((s.writeReg r v).setSp w) [r, 7] := by
  intro q hq
  obtain ⟨hr, h7⟩ : q ≠ r ∧ q ≠ 7 := by simpa using hq
  rw [State.readReg_setSp, if_neg h7, State.readReg_writeReg_other s r q v hr]

/-! ### The obligations -/

/-- Settles O22: the pushed cell is read back, and register 7 is the only one written. -/
theorem pushStoresBelowStack : Obligations.PushStoresBelowStack := by
  intro a ha s hsp
  refine ⟨_, execPush_of_pos ha hsp, ?sp, ?cell, rfl, keepsRegs_setSp s _, keepsMemExcept_memWrite _ _ _, ⟨rfl, rfl⟩,
    ⟨rfl, rfl, rfl⟩⟩
  case sp => exact s.sp_setSp _
  case cell => rw [State.advance_memRead, readReg_setSp_of_byte]; exact State.memRead_memWrite_same ..

/-- Settles O23: for POP R7 the popped byte is the pointer that is then incremented. -/
theorem popLoadsTopOfStack : Obligations.PopLoadsTopOfStack := by
  intro a ha s hsp hbyte
  have hv : ¬ ((⟨a.toNat, ha⟩ : RegIndex) = Config.spIndex ∧ s.memRead s.sp = 0xFF#8) :=
    fun h => hbyte ((regIndex_eq_seven_iff ha).1 h.1) h.2
  refine ⟨_, execPop_of_below ha hsp hv, fun ha7 => ?other, fun ha7 => ?seven, rfl, keepsRegs_writeReg_setSp s _ _ _,
    fun _ => rfl, ⟨rfl, rfl⟩, ⟨rfl, rfl, rfl⟩⟩
  case other =>
    have hr : (⟨a.toNat, ha⟩ : RegIndex) ≠ 7 := fun h => ha7 ((regIndex_eq_seven_iff ha).1 h)
    simp [State.readReg_setSp, State.readReg_writeReg, hr, hr.symm, State.sp_eq]
  case seven =>
    have hr : (⟨a.toNat, ha⟩ : RegIndex) = 7 := (regIndex_eq_seven_iff ha).2 ha7
    simp [State.readReg_setSp, hr, State.sp_eq]

/-- Settles O24: a return address of at most 255 is stored whole. -/
theorem callPushesReturnAddress : Obligations.CallPushesReturnAddress := by
  intro a ha s hpc hsp
  refine ⟨_, execCall_of_fits ha (Nat.not_lt.2 hpc) hsp, ?sp, ?cell, ?pc, keepsRegs_setSp s _,
    keepsMemExcept_memWrite _ _ _, ⟨rfl, rfl⟩, ⟨rfl, rfl, rfl⟩⟩
  case sp => exact s.sp_setSp _
  case cell =>
    have hcell : ∀ t : State, (t.memWrite (s.readReg 7 - 1#8) (BitVec.ofNat 8 (s.pcPlus 2))).memRead
        (s.readReg 7 - 1#8) = BitVec.ofNat 8 (s.pc.toNat + 2) := fun t => State.memRead_memWrite_same ..
    exact (congrArg BitVec.toNat (hcell _)).trans (Nat.mod_eq_of_lt (by omega))
  case pc => rw [State.setPc_pc, readReg_setSp_of_byte]; rfl

theorem zext9_toNat (v : Byte) : (zext9 v).toNat = v.toNat :=
  BitVec.toNat_setWidth_of_le (by decide)

/-- Settles O25: a byte is zero-extended to the program counter, so the target is at most 255. -/
theorem returnPopsProgramCounter : Obligations.ReturnPopsProgramCounter := by
  intro s hsp
  refine ⟨_, execRet_of_below hsp, rfl, ?range, s.sp_setSp _, keepsRegs_setSp s _, fun _ => rfl, ⟨rfl, rfl⟩,
    ⟨rfl, rfl, rfl⟩⟩
  case range => exact (zext9_toNat _).trans_le (Nat.le_of_lt_succ (s.memRead s.sp).isLt)

end Sys2Proof.Machine
end

section
/-! DIV, MOD, SHL, SHR, NOT and CMP (spec/41_alu.md R124 to R126, R130 to R132), and HLT. -/

namespace Sys2Proof.Machine

/-! ### Division -/

/-- An instruction that runs the ALU over two registers, where the ALU answers `f` for a non-zero divisor and division
by zero otherwise. -/
theorem divisionResult_of_alu {make : Byte → Byte → Instr} {opcode : Byte} {f : Nat → Nat → Nat} (op : AluOp)
    (hencode : ∀ a b, encode (make a b) = [opcode, a, b]) (hexec : ∀ a b s, exec (make a b) s = execAluRR op a b s)
    (hzero : ∀ va, alu op va 0#8 = .divisionByZero)
    (halu : ∀ va vb, vb ≠ 0#8 → ∃ v, alu op va vb = .result v ∧ v.toNat = f va.toNat vb.toNat) :
    DivisionResult make opcode f := by
  intro a b ha hb s
  refine ⟨hencode a b, fun hdiv => ?_, fun hdiv => ?_⟩
  · rw [hexec, execAluRR, withRegs_of_lt ha hb, hdiv, hzero, ← BitVec.ofNat_toNat]
    rfl
  · obtain ⟨v, hv, hvalue⟩ := halu (s.readReg ⟨a.toNat, ha⟩) (s.readReg ⟨b.toNat, hb⟩) hdiv
    refine ⟨_, (hexec a b s).trans (execAluRR_of_result ha hb hv), ?_, rfl, ?_⟩
    · rw [State.advance_readReg, State.readReg_writeReg_same, hvalue]
    · exact ⟨keepsRegs_writeReg s _ v, fun _ => rfl, ⟨rfl, rfl⟩, ⟨rfl, rfl, rfl⟩⟩

theorem wrap8_toNat_of_le {n : Nat} {v : Byte} (h : n ≤ v.toNat) : (wrap8 n).toNat = n :=
  Nat.mod_eq_of_lt (Nat.lt_of_le_of_lt h v.isLt)

/-- Settles O17: quotient and remainder are at most the dividend, so they fit in 8 bits. -/
theorem divisionResults : Obligations.DivisionResults := by
  refine ⟨divisionResult_of_alu .div (fun _ _ => rfl) (fun _ _ _ => rfl) (fun _ => rfl)
      fun va vb hvb => ⟨_, if_neg hvb, ?div⟩,
    divisionResult_of_alu .mod (fun _ _ => rfl) (fun _ _ _ => rfl) (fun _ => rfl)
      fun va vb hvb => ⟨_, if_neg hvb, ?mod⟩⟩
  case div => exact wrap8_toNat_of_le (Nat.div_le_self ..)
  case mod => rw [← Nat.mod_eq_sub]; exact wrap8_toNat_of_le (Nat.mod_le ..)

/-! ### Shifts -/

/-- Eight or more places to the left leave nothing in the low byte. -/
theorem shl_mod_byte (x n : Nat) : x * 2 ^ n % 256 = if n < 8 then x * 2 ^ n % 256 else 0 := by
  split
  · rfl
  · next h =>
    have hdvd : 2 ^ 8 ∣ 2 ^ n := Nat.pow_dvd_pow 2 (Nat.le_of_not_lt h)
    exact Nat.mod_eq_zero_of_dvd (Dvd.dvd.mul_left hdvd x)

/-- Eight or more places to the right leave nothing of a byte. -/
theorem shr_byte {x : Nat} (hx : x < 256) (n : Nat) : x / 2 ^ n = if n < 8 then x / 2 ^ n else 0 := by
  split
  · rfl
  · next h =>
    have hpow : 2 ^ 8 ≤ 2 ^ n := Nat.pow_le_pow_right (by decide) (Nat.le_of_not_lt h)
    exact Nat.div_eq_of_lt (Nat.lt_of_lt_of_le hx hpow)

/-- Settles O19: the ALU shifts by the full amount, and from 8 places on nothing is left. -/
theorem shiftResults : Obligations.ShiftResults := by
  refine ⟨aluRRResult_of_alu .shl (fun _ _ => rfl) (fun _ _ _ => rfl) fun va vb => ⟨_, rfl, ?shl⟩,
    aluRRResult_of_alu .shr (fun _ _ => rfl) (fun _ _ _ => rfl) fun va vb => ⟨_, rfl, ?shr⟩⟩
  case shl => exact (wrap8_toNat _).trans (shl_mod_byte ..)
  case shr => exact (wrap8_toNat_of_le (Nat.div_le_self ..)).trans (shr_byte va.isLt _)

/-! ### NOT -/

theorem execNot_of_lt {a : Byte} (ha : a.toNat < 8) (s : State) :
    execNot a s = .next ((s.writeReg ⟨a.toNat, ha⟩ (wrap8 (255 - (s.readReg ⟨a.toNat, ha⟩).toNat))).advance 2) :=
  withReg_of_lt ha s _

theorem complement_toNat (v : Byte) : (wrap8 (255 - v.toNat)).toNat = 255 - v.toNat := by
  rw [wrap8_toNat]
  omega

theorem complement_complement (v : Byte) : wrap8 (255 - (wrap8 (255 - v.toNat)).toNat) = v := by
  apply BitVec.eq_of_toNat_eq
  rw [complement_toNat, complement_toNat]
  have := v.isLt
  omega

/-- Settles O20: the second NOT complements what the first one wrote, and neither writes another register. -/
theorem notResult : Obligations.NotResult := by
  intro a ha s
  refine ⟨rfl, _, execNot_of_lt ha s, ?value, rfl, keepsRegs_writeReg s _ _, fun _ => rfl, ⟨rfl, rfl⟩,
    ⟨rfl, rfl, rfl⟩, _, execNot_of_lt ha _, fun r _ => ?twice⟩
  case value => rw [State.advance_readReg, State.readReg_writeReg_same, complement_toNat]
  case twice =>
    simp only [State.advance_readReg, State.readReg_writeReg, if_true, complement_complement]
    split
    · next h => rw [h]
    · rfl

/-! ### CMP -/

/-- Settles O21: the comparison answers one of three flag triples, and CMP puts it in the place of the flags. -/
theorem compareSetsOneFlag : Obligations.CompareSetsOneFlag := by
  intro a b ha hb s
  refine ⟨rfl, _, exec_cmp_of_lt ha hb s, ?e, ?g, ?l, rfl, fun _ _ => rfl, fun _ => rfl, rfl, ⟨rfl, rfl, rfl⟩⟩
  all_goals
    rw [State.advance_flags, State.setFlags_flags]
    rcases compareFlags_cases (s.readReg ⟨a.toNat, ha⟩) (s.readReg ⟨b.toNat, hb⟩) with ⟨hv, hf⟩ | ⟨hv, hf⟩ | ⟨hv, hf⟩
    all_goals
      simp only [hf, Bool.false_eq_true, true_iff, false_iff]
      omega

/-! ### HLT -/

/-- Settles O30: HLT is the stop followed by an advance of one byte. -/
theorem haltStopsEngine : Obligations.HaltStopsEngine := fun _ => rfl

end Sys2Proof.Machine
end

section
/-! What an instruction can do, said once: an inductive relation with one constructor for each kind of end, proved of
every instruction together with the fact that `exec` always answers a next state. The frames, the precision of errors,
the status transitions and the invariant are then case analyses of it. -/

namespace Sys2Proof

/-- The register byte of an instruction that writes that one register and nothing else but the program counter
(spec/41_alu.md R120; spec/44_ldi_prn_hlt.md R181). -/
def Instr.dest : Instr → Option Byte
  | .ldi a _ | .add a _ | .sub a _ | .mul a _ | .div a _ | .mod a _ | .and a _ | .or a _ | .xor a _ | .not a
  | .shl a _ | .shr a _ => some a
  | .hlt | .ret | .push _ | .pop _ | .prn _ | .call _ | .jmp _ | .jeq _ | .jne _ | .cmp _ _ => none

/-- The register byte of a jump (spec/43_control_flow.md R170). -/
def Instr.jumpReg : Instr → Option Byte
  | .jmp a | .jeq a | .jne a => some a
  | _ => none

/-- A jump writes no register. -/
theorem Instr.dest_of_jumpReg {i : Instr} {a : Byte} (h : i.jumpReg = some a) : i.dest = none := by
  cases i with
  | jmp | jeq | jne => rfl
  | _ => cases h

namespace Machine

/-- What an instruction can raise, and with which `info` (spec/60_exceptions.md R203). -/
inductive Raises (s : State) : Instr → ErrorKind → Word9 → Prop
  | index {i : Instr} {v : Byte} (h : 8 ≤ v.toNat) : Raises s i .outOfBounds (zext9 v)
  | returnAddress {a : Byte} (h : 255 < s.pcPlus 2) : Raises s (.call a) .outOfBounds (BitVec.ofNat 9 (s.pcPlus 2))
  | divisor {i : Instr} (r : RegIndex) : Raises s i .divisionByZero (BitVec.ofNat 9 r.val)
  | stackEmpty {i : Instr} : Raises s i .stackFault 0x000#9
  | stackTop {i : Instr} : Raises s i .stackFault 0x0FF#9

/-- What an instruction can leave: the state with an error's record, or what it writes where it completes. -/
inductive Effect (s : State) : Instr → State → Prop
  | raised {i : Instr} {k : ErrorKind} {info : Word9} (h : Raises s i k info) : Effect s i (s.raised k info)
  | write {i : Instr} {a : Byte} {r : RegIndex} (v : Byte) (hdest : i.dest = some a) (hr : regOf a = some r) :
      Effect s i ((s.writeReg r v).advance (encode i).length)
  | compare (a b va vb : Byte) : Effect s (.cmp a b) ((s.setFlags (compareFlags va vb)).advance 3)
  | print {a : Byte} {r : RegIndex} (hr : regOf a = some r) : Effect s (.prn a) ((s.output (s.readReg r)).advance 2)
  | jump {i : Instr} {a : Byte} (v : Byte) (hjump : i.jumpReg = some a) : Effect s i (s.setPc (zext9 v))
  | pass {i : Instr} {a : Byte} (hjump : i.jumpReg = some a) : Effect s i (s.advance 2)
  | push (a v : Byte) : Effect s (.push a) (((s.setSp (s.sp - 1#8)).memWrite (s.sp - 1#8) v).advance 2)
  | call {a : Byte} (v : Byte) (hsp : s.sp ≠ 0x00#8) (hpc : s.pcPlus 2 ≤ 255) :
      Effect s (.call a)
        (((s.setSp (s.sp - 1#8)).memWrite (s.sp - 1#8) (BitVec.ofNat 8 (s.pcPlus 2))).setPc (zext9 v))
  | pop {a : Byte} {r : RegIndex} (v w : Byte) (hr : regOf a = some r) :
      Effect s (.pop a) (((s.writeReg r v).setSp w).advance 2)
  | ret (v w : Byte) : Effect s .ret ((s.setPc (zext9 v)).setSp w)
  | hlt : Effect s .hlt (s.halt.advance 1)

/-- A result is a next state that the instruction can leave. -/
def HasEffect (s : State) (i : Instr) (x : Result) : Prop := ∃ t, x = .next t ∧ Effect s i t

/-! ### One rule per shared operation -/

theorem Effect.hasEffect {s t : State} {i : Instr} (h : Effect s i t) : HasEffect s i (.next t) := ⟨t, rfl, h⟩

theorem Raises.hasEffect {s : State} {i : Instr} {k : ErrorKind} {info : Word9} (h : Raises s i k info) :
    HasEffect s i (raise k info s) :=
  (Effect.raised h).hasEffect

theorem ite_hasEffect {s : State} {i : Instr} {c : Prop} [Decidable c] {x y : Result} (hx : c → HasEffect s i x)
    (hy : ¬ c → HasEffect s i y) : HasEffect s i (if c then x else y) := by
  split
  · next h => exact hx h
  · next h => exact hy h

theorem withReg_hasEffect {s : State} {i : Instr} {v : Byte} {body : RegIndex → Result}
    (hbody : ∀ r, regOf v = some r → HasEffect s i (body r)) : HasEffect s i (withReg v s body) := by
  by_cases hv : v.toNat < 8
  · rw [withReg_of_lt hv]
    exact hbody _ (regOf_of_lt hv)
  · have hle : 8 ≤ v.toNat := Nat.le_of_not_lt hv
    rw [withReg_of_le hle]
    exact (Raises.index hle).hasEffect

theorem withPushSlot_hasEffect {s : State} {i : Instr} {body : State → Result}
    (hbody : s.sp ≠ 0x00#8 → HasEffect s i (body (s.setSp (s.sp - 1#8)))) : HasEffect s i (withPushSlot s body) := by
  by_cases hsp : s.sp = 0x00#8
  · rw [withPushSlot_zero hsp]
    exact Raises.stackEmpty.hasEffect
  · rw [withPushSlot_pos hsp]
    exact hbody hsp

theorem withPopped_hasEffect {s : State} {i : Instr} {body : Byte → Result}
    (hbody : HasEffect s i (body (s.memRead s.sp))) : HasEffect s i (withPopped s body) := by
  by_cases hsp : s.sp = 0xFF#8
  · rw [withPopped_top hsp]
    exact Raises.stackTop.hasEffect
  · rwa [withPopped_below hsp]

/-- The write-back of an ALU answer that is no flag triple writes the first register, or raises. -/
theorem aluWriteBack_hasEffect {s : State} {i : Instr} {a : Byte} {ra : RegIndex} (hdest : i.dest = some a)
    (hra : regOf a = some ra) (rb : RegIndex) {out : AluOut} (hout : ∀ g, out ≠ .flags g) :
    HasEffect s i (aluWriteBack ra rb (encode i).length s out) := by
  cases out with
  | result v => exact (Effect.write v hdest hra).hasEffect
  | flags g => exact absurd rfl (hout g)
  | divisionByZero => exact (Raises.divisor rb).hasEffect

/-! ### One rule per meaning -/

theorem execAluRR_hasEffect {op : AluOp} (hop : op ≠ .cmp) {s : State} {i : Instr} {a : Byte} (b : Byte)
    (hdest : i.dest = some a) (hlen : (encode i).length = 3) : HasEffect s i (execAluRR op a b s) :=
  withReg_hasEffect fun _ hra => withReg_hasEffect fun rb _ =>
    hlen ▸ aluWriteBack_hasEffect hdest hra rb (alu_ne_flags hop _ _)

theorem jumpIf_hasEffect {s : State} {i : Instr} {a : Byte} (taken : Bool) (hjump : i.jumpReg = some a) :
    HasEffect s i (jumpIf taken a s) :=
  withReg_hasEffect fun _ _ =>
    ite_hasEffect (fun _ => (Effect.jump _ hjump).hasEffect) fun _ => (Effect.pass hjump).hasEffect

theorem execPop_hasEffect (a : Byte) (s : State) : HasEffect s (.pop a) (execPop a s) := by
  refine withReg_hasEffect fun r hr => withPopped_hasEffect (ite_hasEffect (fun hv => ?_) fun _ => ?_)
  · rw [hv.2]
    exact Raises.stackTop.hasEffect
  · exact (Effect.pop _ _ hr).hasEffect

theorem execCall_hasEffect (a : Byte) (s : State) : HasEffect s (.call a) (execCall a s) :=
  withReg_hasEffect fun r _ => ite_hasEffect (fun hpc => (Raises.returnAddress hpc).hasEffect) fun hpc =>
    withPushSlot_hasEffect fun hsp => by
      rw [State.sp_setSp]
      exact (Effect.call _ hsp (Nat.not_lt.1 hpc)).hasEffect

theorem execPush_hasEffect (a : Byte) (s : State) : HasEffect s (.push a) (execPush a s) :=
  withReg_hasEffect fun r _ => withPushSlot_hasEffect fun _ => by
    rw [State.sp_setSp]
    exact (Effect.push a _).hasEffect

theorem execRet_hasEffect (s : State) : HasEffect s .ret (execRet s) :=
  withPopped_hasEffect (body := fun v => .next ((s.setPc (zext9 v)).setSp (s.sp + 1#8))) (Effect.ret _ _).hasEffect

/-- Every instruction answers a next state, and one that its row of the relation allows. -/
theorem exec_hasEffect (i : Instr) (s : State) : HasEffect s i (exec i s) := by
  cases i with
  | hlt => exact Effect.hlt.hasEffect
  | ret => exact execRet_hasEffect s
  | push a => exact execPush_hasEffect a s
  | pop a => exact execPop_hasEffect a s
  | prn a => exact withReg_hasEffect fun r hr => (Effect.print hr).hasEffect
  | call a => exact execCall_hasEffect a s
  | jmp a | jeq a | jne a => exact jumpIf_hasEffect _ rfl
  | not a => exact withReg_hasEffect fun r hr => aluWriteBack_hasEffect rfl hr r (alu_ne_flags (by decide) _ _)
  | ldi a b => exact withReg_hasEffect fun r hr => (Effect.write b rfl hr).hasEffect
  | cmp a b => exact withReg_hasEffect fun ra _ => withReg_hasEffect fun rb _ => (Effect.compare a b _ _).hasEffect
  | add a b | sub a b | mul a b | div a b | mod a b | and a b | or a b | xor a b | shl a b | shr a b =>
    exact execAluRR_hasEffect (by decide) b rfl rfl

theorem exec_effect {i : Instr} {s t : State} (h : exec i s = .next t) : Effect s i t := by
  obtain ⟨u, hu, heffect⟩ := exec_hasEffect i s
  obtain rfl := Host.Outcome.next.inj (hu.symm.trans h)
  exact heffect

end Machine
end Sys2Proof
end

section
/-! The frames, for every operand byte and every next state, an error's too (spec/10_state.md section 1). -/

namespace Sys2Proof.Machine

/-- An instruction with one destination register changes no other register, no cell, no flag and no output. -/
theorem frame_of_dest {i : Instr} {a : Byte} {s t : State} (hdest : i.dest = some a) (h : exec i s = .next t) :
    (∀ r : RegIndex, r.val ≠ a.toNat → t.readReg r = s.readReg r) ∧ KeepsMem s t ∧ KeepsFlagsOut s t := by
  cases exec_effect h with
  | raised _ => exact ⟨fun _ _ => rfl, fun _ => rfl, ⟨rfl, rfl⟩⟩
  | write v hd hr =>
    obtain rfl := Option.some.inj (hd.symm.trans hdest)
    refine ⟨fun q hq => s.readReg_writeReg_other _ q v fun hqr => hq ?_, fun _ => rfl, ⟨rfl, rfl⟩⟩
    rw [hqr, regOf_eq_some.1 hr]
  | jump _ hjump | pass hjump => cases (Instr.dest_of_jumpReg hjump).symm.trans hdest
  | _ => cases hdest

/-- Settles O31: the twelve instructions are those with one destination register, their first operand. -/
theorem registerWriteFrame : Obligations.RegisterWriteFrame := by
  intro a b s t i hi h
  have hdest : i.dest = some a := by fin_cases hi <;> rfl
  exact frame_of_dest hdest h

/-- Settles O32: of the effects, the six can have those that write the flags, the output or the program counter. -/
theorem noRegisterWriteFrame : Obligations.NoRegisterWriteFrame := by
  intro a b s t i hi h
  cases exec_effect h with
  | raised _ | jump _ _ | pass _ | hlt => exact ⟨fun _ _ => rfl, fun _ => rfl, fun _ => rfl, fun _ => rfl⟩
  | compare a' b' _ _ =>
    obtain ⟨rfl, rfl⟩ : a' = a ∧ b' = b := by simpa using hi
    exact ⟨fun _ _ => rfl, fun _ => rfl, fun hne => absurd rfl hne, fun _ => rfl⟩
  | print hr =>
    obtain rfl := by simpa using hi
    exact ⟨fun _ _ => rfl, fun _ => rfl, fun _ => rfl, fun hne => absurd rfl hne⟩
  | write v hdest hr => fin_cases hi <;> cases hdest
  | push | call | pop | ret => simp at hi

/-- Settles O33: PUSH and CALL move the stack pointer and write the cell there, POP and RET move it. -/
theorem stackInstructionFrame : Obligations.StackInstructionFrame := by
  refine fun a s t => ⟨fun i hi h => ?_, fun h => ?_, fun h => ?_⟩
  · cases exec_effect h with
    | raised _ => exact ⟨fun _ _ => rfl, fun _ _ => rfl, ⟨rfl, rfl⟩⟩
    | push _ v => exact ⟨keepsRegs_setSp s _, keepsMemExcept_memWrite _ _ _, ⟨rfl, rfl⟩⟩
    | call v _ _ => exact ⟨keepsRegs_setSp s _, keepsMemExcept_memWrite _ _ _, ⟨rfl, rfl⟩⟩
    | write _ h' _ | jump _ h' | pass h' => fin_cases hi <;> cases h'
    | compare | print | pop | ret | hlt => simp at hi
  · cases exec_effect h with
    | raised _ => exact ⟨fun _ _ _ => rfl, fun _ => rfl, ⟨rfl, rfl⟩⟩
    | @pop _ r v w hr =>
      refine ⟨fun q hqa hq7 => keepsRegs_writeReg_setSp s r v w q ?_, fun _ => rfl, ⟨rfl, rfl⟩⟩
      have hqr : q ≠ r := fun hqr => hqa (hqr ▸ (regOf_eq_some.1 hr).symm)
      simp [hqr, hq7]
    | write _ h' _ | jump _ h' | pass h' => cases h'
  · cases exec_effect h with
    | raised _ => exact ⟨fun _ _ => rfl, fun _ => rfl, ⟨rfl, rfl⟩⟩
    | ret v w => exact ⟨keepsRegs_setSp _ w, fun _ => rfl, ⟨rfl, rfl⟩⟩
    | write _ h' _ | jump _ h' | pass h' => cases h'

end Sys2Proof.Machine
end

section
/-! What a step can do to each part of the state: the error record and the status, memory, the output and the program
counter. Each is read off the relation of the effects. -/

namespace Sys2Proof.Machine

/-! ### One instruction -/

/-- The status registers: an error writes them, HLT stops the engine, and every other end keeps them. -/
theorem Effect.status_cases {s t : State} {i : Instr} (h : Effect s i t) :
    (∃ k info, Raises s i k info ∧ t = s.raised k info) ∨ (i = .hlt ∧ t = s.halt.advance 1) ∨
      (i ≠ .hlt ∧ KeepsStatus s t) := by
  cases h with
  | raised h => exact .inl ⟨_, _, h, rfl⟩
  | hlt => exact .inr (.inl ⟨rfl, rfl⟩)
  | write _ h' _ | jump _ h' | pass h' =>
    exact .inr (.inr ⟨(by rintro rfl; cases h'), rfl, rfl, rfl⟩)
  | _ => exact .inr (.inr ⟨nofun, rfl, rfl, rfl⟩)

/-- Memory: only PUSH and CALL write it, one cell each, below the stack pointer. -/
theorem Effect.mem_cases {s t : State} {i : Instr} (h : Effect s i t) :
    t.mem = s.mem ∨
      ((∃ a, i = .push a ∨ i = .call a) ∧ t.sp = s.sp - 1#8 ∧ ∃ v, t.mem = (s.memWrite (s.sp - 1#8) v).mem) := by
  cases h with
  | push a v => exact .inr ⟨⟨a, .inl rfl⟩, s.sp_setSp _, v, rfl⟩
  | call v _ _ => exact .inr ⟨⟨_, .inr rfl⟩, s.sp_setSp _, _, rfl⟩
  | _ => exact .inl rfl

/-- The output: only PRN writes it, at its end. -/
theorem Effect.out_cases {s t : State} {i : Instr} (h : Effect s i t) :
    t.out = s.out ∨ ∃ a r, i = .prn a ∧ regOf a = some r ∧ t.out = s.out ++ [s.readReg r] := by
  cases h with
  | print hr => exact .inr ⟨_, _, rfl, hr, rfl⟩
  | _ => exact .inl rfl

theorem zext9_le (v : Byte) : (zext9 v).toNat ≤ 256 :=
  (zext9_toNat v).trans_le (Nat.le_of_lt v.isLt)

theorem encode_length_of_jumpReg {i : Instr} {a : Byte} (h : i.jumpReg = some a) : (encode i).length = 2 := by
  cases i with
  | jmp | jeq | jne => rfl
  | _ => cases h

/-- The program counter: an error leaves it, a jump or a return assigns a byte, and every advance is past the
instruction's own bytes. -/
theorem Effect.pc_cases {s t : State} {i : Instr} (h : Effect s i t) :
    t.pc = s.pc ∨ (∃ v, t.pc = zext9 v) ∨ t.pc = s.pc + BitVec.ofNat 9 (encode i).length := by
  cases h with
  | raised _ => exact .inl rfl
  | jump v _ | call v _ _ | ret v _ => exact .inr (.inl ⟨v, rfl⟩)
  | pass h' => exact .inr (.inr (by rw [encode_length_of_jumpReg h']; rfl))
  | _ => exact .inr (.inr rfl)

/-! ### The step -/

theorem step_of_halted {s : State} (h : s.status = .halted) : step s = .next s := by
  simp [step, h]

/-- Settles O37: every instruction and every failed fetch or decode answers a next state. -/
theorem stepAlwaysAnswersNext : Obligations.StepAlwaysAnswersNext := by
  intro s
  by_cases hs : s.status = .halted
  · exact ⟨s, step_of_halted hs⟩
  · cases hdecode : decode (fetchBytes s) with
    | ok p =>
      obtain ⟨t, ht, -⟩ := exec_hasEffect p.1 s.start
      exact ⟨t, (step_of_decode_ok hs hdecode).trans ht⟩
    | error e => cases e <;> exact ⟨_, step_of_decode_error hs hdecode⟩

/-- A step that does not do nothing has the effect of the decoded instruction, or raises the error of a failed fetch or
decode. -/
theorem step_effect {s t : State} (h : step s = .next t) :
    t = s ∨ (∃ i rest, decode (fetchBytes s) = .ok (i, rest) ∧ Effect s.start i t) ∨ ∃ k info, t = s.raised k info := by
  rcases step_cases h with ⟨-, rfl⟩ | ⟨-, i, rest, hdecode, hexec⟩ | ⟨-, e, -, hraise⟩
  · exact .inl rfl
  · exact .inr (.inl ⟨i, rest, hdecode, exec_effect hexec⟩)
  · obtain ⟨k, info, rfl⟩ := raiseDecodeError_next hraise
    exact .inr (.inr ⟨k, info, s.start_raised k info⟩)

/-- A step that changes the error record answers the raised state. -/
theorem step_raised_of_fault_ne {s t : State} (h : step s = .next t) (hfault : t.fault ≠ s.fault) :
    ∃ k info, t = s.raised k info := by
  rcases step_effect h with rfl | ⟨i, rest, -, heffect⟩ | hraised
  · exact absurd rfl hfault
  · rcases heffect.status_cases with ⟨k, info, -, rfl⟩ | ⟨-, rfl⟩ | ⟨-, -, -, hkeep⟩
    · exact ⟨k, info, s.start_raised k info⟩
    · exact absurd s.start_fault hfault
    · exact absurd (hkeep.trans s.start_fault) hfault
  · exact hraised

/-- Settles O15: such a step answers the raised state, which differs in the record, RUNNING and STATE alone. -/
theorem errorsArePrecise : Obligations.ErrorsArePrecise := by
  intro s t h hfault
  obtain ⟨k, info, rfl⟩ := step_raised_of_fault_ne h hfault
  exact ⟨rfl, rfl, rfl, rfl, rfl, rfl, rfl, k, info, rfl⟩

/-- Settles O35: of the effects, only those of PUSH and CALL change memory, by one write. -/
theorem memoryWrittenByPushAndCallOnly : Obligations.MemoryWrittenByPushAndCallOnly := by
  intro s t h hmem
  rcases step_effect h with rfl | ⟨i, rest, hdecode, heffect⟩ | ⟨k, info, rfl⟩
  · exact absurd rfl hmem
  · rcases heffect.mem_cases with hsame | ⟨⟨a, hi⟩, hsp, v, hwrite⟩
    · exact absurd (hsame.trans s.start_mem) hmem
    · rw [State.start_sp] at hsp hwrite
      refine ⟨⟨a, rest, by rcases hi with rfl | rfl <;> simp [hdecode]⟩, hsp, fun addr haddr => ?_⟩
      calc t.memRead addr = (s.start.memWrite (s.sp - 1#8) v).memRead addr := by rw [State.memRead, hwrite]; rfl
        _ = s.start.memRead addr := keepsMemExcept_memWrite _ _ v addr haddr
        _ = s.memRead addr := s.start_memRead addr
  · exact absurd rfl hmem

/-- Settles O36: of the effects, only that of PRN changes the output. -/
theorem outputGrowsByPrintOnly : Obligations.OutputGrowsByPrintOnly := by
  intro s t h
  rcases step_effect h with rfl | ⟨i, rest, hdecode, heffect⟩ | ⟨k, info, rfl⟩
  · exact .inl rfl
  · rcases heffect.out_cases with hsame | ⟨a, r, rfl, hr, hout⟩
    · exact .inl (hsame.trans s.start_out)
    · rw [State.start_out, State.start_readReg] at hout
      exact .inr ⟨a, r, rest, hdecode, hr, hout⟩
  · exact .inl rfl

/-! ### Several steps -/

theorem run_succ_of_step (M : Host.Core) {s t : M.State} (h : M.step s = .next t) (n : Nat) :
    M.run (n + 1) s = M.run n t := by
  rw [Host.Core.run, h]

theorem core_run_succ {s t : State} (h : step s = .next t) (n : Nat) :
    Host.Core.run core (n + 1) s = Host.Core.run core n t :=
  run_succ_of_step core h n

/-- Settles O38, by induction on the number of steps. -/
theorem haltedIsTerminal : Obligations.HaltedIsTerminal := by
  intro n s hs
  induction n with
  | zero => rfl
  | succ n ih => exact (core_run_succ (step_of_halted hs) n).trans ih

end Sys2Proof.Machine
end

section
/-! The invariant (spec/10_state.md; spec/60_exceptions.md R203): every instruction that lies whole in memory keeps it,
and so does every error of a fetch or a decode, since a step raises only records that are legal. -/

namespace Sys2Proof

/-- Everything the decoder can report, and of which bytes. -/
theorem decode_error_cases {bytes : List Byte} {e : DecodeError} (h : decode bytes = .error e) :
    (e = .noOpcode ∧ bytes = []) ∨ (∃ op, e = .illegalOpcode op ∧ known op = false) ∨
      (bytes.length < 3 ∧ e = .missingOperand bytes.length) := by
  match bytes with
  | [] => exact .inl ⟨(Except.error.inj h).symm, rfl⟩
  | op :: rest =>
    match hshape : opShape op, rest with
    | none, rest =>
      have hop : known op = false := by simp [known, hshape]
      obtain rfl := Except.error.inj ((decode_of_unknown hop rest).symm.trans h)
      exact .inr (.inl ⟨op, rfl, hop⟩)
    | some (.one _), [] | some (.two _), [] | some (.two _), [_] =>
      obtain rfl : _ = e := by simpa [decode, hshape] using h
      exact .inr (.inr ⟨by simp, rfl⟩)
    | some (.none _), _ | some (.one _), _ :: _ | some (.two _), _ :: _ :: _ => simp [decode, hshape] at h

namespace Machine

/-! ### The records that are raised are legal -/

/-- What an instruction raises that lies whole in memory. -/
theorem Raises.legal {s : State} {i : Instr} {k : ErrorKind} {info : Word9} (h : Raises s i k info)
    (hfits : s.pc.toNat + (encode i).length ≤ 256) : FaultRecord.Legal ⟨k, s.pc, info⟩ := by
  cases h with
  | @index _ v hv => exact ⟨(zext9_toNat v).symm ▸ hv, zext9_le v⟩
  | @returnAddress a hpc =>
    have hlen : s.pcPlus 2 ≤ 256 := hfits
    have hinfo : (BitVec.ofNat 9 (s.pcPlus 2)).toNat = s.pcPlus 2 := Nat.mod_eq_of_lt (by omega)
    simp only [FaultRecord.Legal, hinfo]
    omega
  | divisor r =>
    have hr := r.isLt
    exact (Nat.mod_eq_of_lt (by omega)).trans_lt hr
  | stackEmpty => exact .inl rfl
  | stackTop => exact .inr rfl

/-- What a failed fetch or decode raises at a program counter in range. -/
theorem raiseDecodeError_legal {s : State} {e : DecodeError} (hpc : s.pc.toNat ≤ 256)
    (h : decode (fetchBytes s) = .error e) :
    ∃ k info, raiseDecodeError e s = .next (s.raised k info) ∧ FaultRecord.Legal ⟨k, s.pc, info⟩ := by
  rcases decode_error_cases h with ⟨rfl, hnil⟩ | ⟨op, rfl, hop⟩ | ⟨hlt, rfl⟩
  · have hlen := fetchBytes_length s
    rw [hnil, List.length_nil] at hlen
    exact ⟨_, _, rfl, show 8 ≤ s.pc.toNat by omega, hpc⟩
  · have hbyte : (zext9 op).setWidth 8 = op := by simp [zext9]
    exact ⟨_, _, rfl, (zext9_toNat op).trans_lt op.isLt, hbyte.symm ▸ hop⟩
  · have hlen := fetchBytes_length s
    have haddr : s.pcPlus (fetchBytes s).length = 256 := by rw [State.pcPlus]; omega
    exact ⟨_, _, rfl, by rw [haddr]; exact (by decide : 8 ≤ 256 ∧ 256 ≤ 256)⟩

/-! ### Sound states -/

theorem State.Inv.fault_eq_none {s : State} (h : s.Inv) (hs : s.status ≠ .halted) : s.fault = none := by
  cases hfault : s.fault with
  | none => rfl
  | some r => exact absurd (h.fault_sound r hfault).1 hs

theorem State.Inv.start {s : State} (h : s.Inv) (hs : s.status ≠ .halted) : s.start.Inv where
  memory := s.start_mem ▸ h.memory
  pc_le := s.start_pc ▸ h.pc_le
  running_iff := by simp [s.start_status hs, s.start_running hs h.running_iff]
  flags_one := s.start_flags ▸ h.flags_one
  fault_sound := by simp [h.fault_eq_none hs]

theorem State.Inv.raised {s : State} (h : s.Inv) {k : ErrorKind} {info : Word9}
    (hlegal : FaultRecord.Legal ⟨k, s.pc, info⟩) : (s.raised k info).Inv where
  memory := h.memory
  pc_le := h.pc_le
  running_iff := by simp
  flags_one := h.flags_one
  fault_sound := by
    intro r hr
    obtain rfl := Option.some.inj hr
    exact ⟨rfl, rfl, hlegal⟩

theorem Effect.wf_mem {s t : State} {i : Instr} (h : Effect s i t) (hwf : Memory.wf s.mem = true) :
    Memory.wf t.mem = true := by
  rcases h.mem_cases with hsame | ⟨-, -, v, hwrite⟩
  · exact hsame ▸ hwf
  · exact hwrite ▸ State.wf_memWrite hwf _ v

/-- An instruction that lies whole in memory never moves the program counter past 256 (spec/10_state.md R26). -/
theorem Effect.pc_le {s t : State} {i : Instr} (h : Effect s i t) (hpc : s.pc.toNat + (encode i).length ≤ 256) :
    t.pc.toNat ≤ 256 := by
  rcases h.pc_cases with hsame | ⟨v, hv⟩ | hnext
  · rw [hsame]; omega
  · exact hv ▸ zext9_le v
  · rw [hnext, toNat_pc_add hpc]
    exact hpc

/-- A running instruction that lies whole in memory keeps a sound state sound. -/
theorem exec_keeps_inv {s t : State} {i : Instr} (hinv : s.Inv) (hs : s.status = .running)
    (hfits : s.pc.toNat + (encode i).length ≤ 256) (h : exec i s = .next t) : t.Inv := by
  have heffect := exec_effect h
  have hflags : t.flags.AtMostOne := (exec_flags_cases h).elim (fun hsame => hsame ▸ hinv.flags_one) And.left
  have hfault : s.fault = none := hinv.fault_eq_none (by simp [hs])
  rcases heffect.status_cases with ⟨k, info, hraises, rfl⟩ | ⟨-, rfl⟩ | ⟨-, hrunning, hstatus, hkeep⟩
  · exact hinv.raised (hraises.legal hfits)
  · exact ⟨heffect.wf_mem hinv.memory, heffect.pc_le hfits, by simp, hflags, by simp [hfault]⟩
  · exact ⟨heffect.wf_mem hinv.memory, heffect.pc_le hfits, by rw [hrunning, hstatus]; exact hinv.running_iff, hflags,
      by simp [hkeep, hfault]⟩

/-- Settles O41: the started state is sound, and a decoded instruction lies whole in memory. -/
theorem stepKeepsSoundState : Obligations.StepKeepsSoundState := by
  intro s t hinv h
  rcases step_cases h with ⟨-, rfl⟩ | ⟨hs, i, rest, hdecode, hexec⟩ | ⟨hs, e, hdecode, hraise⟩
  · exact hinv
  · have hnext := next_address_le hdecode
    refine exec_keeps_inv (hinv.start hs) (s.start_status hs) ?_ hexec
    rw [State.start_pc, encode_length]
    omega
  · have hstart := hinv.start hs
    obtain ⟨k, info, hraised, hlegal⟩ := raiseDecodeError_legal hstart.pc_le ((fetchBytes_start s).symm ▸ hdecode)
    obtain rfl := Host.Outcome.next.inj (hraised.symm.trans hraise)
    exact hstart.raised hlegal

end Machine
end Sys2Proof
end

section
/-! The engine's status over a step and over a run (spec/40_engine_cycle.md R108, R110). -/

namespace Sys2Proof.Machine

/-- Settles O39: an error and HLT stop the engine, and every other effect keeps it running, with no record. -/
theorem statusTransitions : Obligations.StatusTransitions := by
  intro s t hinv hs h
  have hfault := hinv.fault_eq_none hs
  rcases step_cases h with ⟨hhalted, -⟩ | ⟨-, i, rest, hdecode, hexec⟩ | ⟨-, e, -, hraise⟩
  · exact absurd hhalted hs
  · rcases (exec_effect hexec).status_cases with ⟨k, info, -, rfl⟩ | ⟨rfl, rfl⟩ | ⟨hne, hrunning, hstatus, hkeep⟩
    · simp
    · simp [hdecode]
    · rw [s.start_running hs hinv.running_iff] at hrunning
      rw [s.start_status hs] at hstatus
      simp [hrunning, hstatus, hkeep, hfault, hdecode, hne]
  · obtain ⟨k, info, rfl⟩ := raiseDecodeError_next hraise
    simp

/-- RUNNING is false after a step exactly if the engine is Halted then. -/
theorem step_running_eq_false_iff {s t : State} (hinv : s.Inv) (h : step s = .next t) :
    t.running = false ↔ t.status = .halted := by
  by_cases hs : s.status = .halted
  · obtain rfl := Host.Outcome.next.inj ((step_of_halted hs).symm.trans h)
    have hrunning := hinv.running_iff
    simp_all
  · obtain ⟨hstatus, hrunning, -⟩ := statusTransitions s t hinv hs h
    rcases hstatus with hstatus | hstatus <;> simp_all

theorem hostStep_of_step {s t : State} (h : step s = .next t) : hostStep s = (t, t.running) := by
  rw [hostStep, h]

theorem run_succ_of_running {s t : State} (h : step s = .next t) (hrunning : t.running = true) (n : Nat) :
    run (n + 1) s = run n t := by
  rw [run, hostStep_of_step h, hrunning]

theorem run_succ_of_stopped {s t : State} (h : step s = .next t) (hrunning : t.running = false) (n : Nat) :
    run (n + 1) s = some t := by
  rw [run, hostStep_of_step h, hrunning]

/-- A run that returns within its fuel returns the Halted state after that many steps, with any larger fuel too. -/
theorem run_eq_some {n : Nat} {s t : State} (hinv : s.Inv) (h : run n s = some t) :
    t.status = .halted ∧ Host.Core.run core n s = .next t ∧ ∀ m, n ≤ m → run m s = some t := by
  induction n generalizing s with
  | zero => cases h
  | succ n ih =>
    obtain ⟨u, hu⟩ := stepAlwaysAnswersNext s
    cases hrunning : u.running with
    | true =>
      rw [run_succ_of_running hu hrunning] at h
      obtain ⟨hstatus, hrun, hmore⟩ := ih (stepKeepsSoundState s u hinv hu) h
      refine ⟨hstatus, (core_run_succ hu n).trans hrun, fun m hm => ?_⟩
      obtain ⟨m, rfl⟩ := Nat.exists_eq_add_of_lt hm
      exact (run_succ_of_running hu hrunning _).trans (hmore _ (by omega))
    | false =>
      rw [run_succ_of_stopped hu hrunning] at h
      obtain rfl := Option.some.inj h
      have hstatus := (step_running_eq_false_iff hinv hu).1 hrunning
      refine ⟨hstatus, (core_run_succ hu n).trans (haltedIsTerminal n u hstatus), fun m hm => ?_⟩
      obtain ⟨m, rfl⟩ := Nat.exists_eq_add_of_lt hm
      exact run_succ_of_stopped hu hrunning _

/-- A run whose fuel of at least one step ran out is not Halted. -/
theorem run_eq_none {n : Nat} {s : State} (hinv : s.Inv) (h : run (n + 1) s = none) :
    ∃ t, Host.Core.run core (n + 1) s = .next t ∧ t.status ≠ .halted := by
  induction n generalizing s with
  | zero =>
    obtain ⟨u, hu⟩ := stepAlwaysAnswersNext s
    refine ⟨u, core_run_succ hu 0, fun hstatus => ?_⟩
    rw [run_succ_of_stopped hu ((step_running_eq_false_iff hinv hu).2 hstatus)] at h
    cases h
  | succ n ih =>
    obtain ⟨u, hu⟩ := stepAlwaysAnswersNext s
    cases hrunning : u.running with
    | true =>
      rw [run_succ_of_running hu hrunning] at h
      obtain ⟨t, hrun, hstatus⟩ := ih (stepKeepsSoundState s u hinv hu) h
      exact ⟨t, (core_run_succ hu _).trans hrun, hstatus⟩
    | false =>
      rw [run_succ_of_stopped hu hrunning] at h
      cases h

/-- Settles O40, by induction on the fuel. -/
theorem runEndsExactlyWhenHalted : Obligations.RunEndsExactlyWhenHalted := by
  refine fun s hinv => ⟨?step, fun n t h => run_eq_some hinv h, fun n h hn => ?fuel⟩
  case step =>
    obtain ⟨t, ht⟩ := stepAlwaysAnswersNext s
    exact ⟨t, ht, hostStep_of_step ht, step_running_eq_false_iff hinv ht⟩
  case fuel =>
    obtain ⟨n, rfl⟩ := Nat.exists_eq_succ_of_ne_zero hn
    exact run_eq_none hinv h

/-! ### Reset and load -/

/-- Settles O42, field by field of the reset state. -/
theorem resetStateIsSound : Obligations.ResetStateIsSound where
  memory := rfl
  pc_le := by decide
  running_iff := by decide
  flags_one := ⟨rfl, rfl, rfl⟩
  fault_sound := nofun

/-- Settles O44, by evaluating the reset state; no cell is listed, so each reads as the fill. -/
theorem resetValues : Obligations.ResetValues :=
  ⟨rfl, by decide, rfl, rfl, rfl, rfl, fun _ => rfl⟩

theorem load_of_accepted {image : List Byte} (h : image.length ≤ 256) (startPc : Byte) (s : State) :
    load image startPc s = { State.reset with pc := zext9 startPc, mem := Memory.ofBytes 0 image } :=
  if_pos (decide_eq_true h)

/-- Settles O45: memory is made of the image alone, and the other fields are those of the reset state, which is
sound. -/
theorem loadPlacesImage : Obligations.LoadPlacesImage := by
  refine fun image startPc s => ⟨fun h => ?_, fun h => ?_⟩
  · rw [load_of_accepted h]
    refine ⟨fun addr => ?cell, rfl, rfl, ?sound⟩
    case cell => exact (Memory.read_ofBytes image 0 addr.toNat).trans (if_pos (Nat.zero_le _))
    case sound =>
      exact { resetStateIsSound with
        memory := Memory.wf_ofBytes image h
        pc_le := zext9_le startPc
        fault_sound := nofun }
  · exact if_neg fun haccepts => Nat.not_le.2 h (of_decide_eq_true haccepts)

end Sys2Proof.Machine
end

section
/-! Properties over several instructions (spec/95_test_vectors.md S-2 to S-5; spec/20_memory.md R57, R61): each runs the
equations of its instructions one after the other. -/

namespace Sys2Proof.Machine

/-- Settles O47, by the memory's law of a read after a write. -/
theorem memoryReadAfterWrite : Obligations.MemoryReadAfterWrite :=
  fun s addr other v => ⟨s.memRead_memWrite addr other v, rfl⟩

/-! ### PUSH and POP -/

theorem sub_one_ne_top_of_ne_zero {v : Byte} (h : v ≠ 0x00#8) : v - 1#8 ≠ 0xFF#8 := by
  intro htop
  exact h (by rw [← BitVec.sub_add_cancel v 1#8, htop]; rfl)

/-- Settles O48: the POP reads the cell that the PUSH wrote, at the pointer the PUSH left. -/
theorem pushThenPopRestores : Obligations.PushThenPopRestores := by
  intro a b ha hb s ha7 hb7 hsp
  obtain ⟨t, ht, htsp, hcell, -⟩ := pushStoresBelowStack a ha s hsp
  have htop : t.readReg 7 ≠ 0xFF#8 := htsp ▸ sub_one_ne_top_of_ne_zero hsp
  obtain ⟨u, hu, hpopped, -⟩ := popLoadsTopOfStack b hb t htop fun h => absurd h hb7
  obtain ⟨hub, husp⟩ := hpopped hb7
  refine ⟨t, u, ht, hu, ?_, ?_⟩
  · rw [hub, htsp, hcell, if_neg ha7]
  · rw [husp, htsp, BitVec.sub_add_cancel]

/-- Settles O52: the fetch begins with the cell at the program counter, which is the one pushed. -/
theorem pushedByteIsFetchedNext : Obligations.PushedByteIsFetchedNext := by
  intro a ha s ha7 hsp hslot
  obtain ⟨t, ht, -, hcell, hpc, -⟩ := pushStoresBelowStack a ha s hsp
  have hpc' : t.pc = zext9 (s.readReg 7 - 1#8) := hpc.trans hslot
  have hbyte : t.pc.setWidth 8 = s.readReg 7 - 1#8 := by rw [hpc']; simp [zext9]
  have hrange : t.pc.toNat ≤ 255 := by
    rw [hpc', zext9_toNat]
    exact Nat.le_of_lt_succ (s.readReg 7 - 1#8).isLt
  refine ⟨t, ht, ?_⟩
  rw [fetchBytes_cons hrange, hbyte, hcell, if_neg ha7]
  rfl

/-! ### CALL and RET -/

/-- What a CALL that completes has found and left: room on the stack, and the return address in the pushed cell. -/
theorem exec_call_completed {a : Byte} {s t : State} (h : exec (.call a) s = .next t) (ht : t.fault = none) :
    s.sp ≠ 0x00#8 ∧ t.sp = s.sp - 1#8 ∧ (t.memRead t.sp).toNat = s.pc.toNat + 2 := by
  cases exec_effect h with
  | raised _ => cases ht
  | call v hsp hpc =>
    refine ⟨hsp, s.sp_setSp _, ?_⟩
    rw [State.setPc_sp, State.memWrite_sp, State.sp_setSp, State.setPc_memRead, State.memRead_memWrite_same]
    exact Nat.mod_eq_of_lt (Nat.lt_succ_of_le hpc)
  | write _ h' _ | jump _ h' | pass h' => cases h'

/-- Settles O49: the RET reads the cell that the CALL wrote, at the pointer the CALL left. -/
theorem callThenReturnResumes : Obligations.CallThenReturnResumes := by
  intro a s t u _ h ht husp hucell
  obtain ⟨hsp, htsp, hreturn⟩ := exec_call_completed h ht
  have husp' : u.readReg 7 = s.readReg 7 - 1#8 := husp.trans htsp
  have htop : u.readReg 7 ≠ 0xFF#8 := husp' ▸ sub_one_ne_top_of_ne_zero hsp
  obtain ⟨v, hv, hpc, -, hvsp, hregs, -⟩ := returnPopsProgramCounter u htop
  refine ⟨v, hv, ?_, ?_, hregs⟩
  · rw [hpc, hucell]
    exact (zext9_toNat _).trans hreturn
  · rw [hvsp, husp', BitVec.sub_add_cancel]

/-! ### CMP and the conditional jumps -/

theorem compareFlags_e (va vb : Byte) : (compareFlags va vb).e = decide (va = vb) := by
  rcases compareFlags_cases va vb with ⟨hv, h⟩ | ⟨hv, h⟩ | ⟨hv, h⟩
  · simp [h, ← BitVec.toNat_inj, hv]
  · simp [h, ← BitVec.toNat_inj, Nat.ne_of_gt hv]
  · simp [h, ← BitVec.toNat_inj, Nat.ne_of_lt hv]

/-- Settles O50: the jumps read the Equal flag that the CMP set, and CMP writes no register. -/
theorem compareThenJump : Obligations.CompareThenJump := by
  intro a b c ha hb hc s
  refine ⟨_, _, _, exec_cmp_of_lt ha hb s, jumpIf_of_lt hc _ _, jumpIf_of_lt hc _ _, ?jeq, ?jne⟩
  all_goals
    have hpast : s.pc + 3#9 + 2#9 = s.pc + 5#9 := BitVec.add_assoc ..
    simp only [State.setPc_pc, jumpsIfEqual, jumpsIfNotEqual, State.advance_flags, State.setFlags_flags, compareFlags_e,
      State.advance_readReg, State.setFlags_readReg, State.advance_pc, State.setFlags_pc, hpast, decide_eq_true_eq,
      Bool.not_eq_true', decide_eq_false_iff_not, ite_not]

/-! ### LDI and PRN -/

/-- Settles O51: PRN reads the register that LDI wrote. -/
theorem loadThenPrintOutputs : Obligations.LoadThenPrintOutputs := by
  intro a v s ha
  refine ⟨_, _, execLdi_of_lt ha v s, execPrn_of_lt ha _, ?_⟩
  rw [State.advance_out, State.output_out, State.advance_readReg, State.readReg_writeReg_same]
  rfl

end Sys2Proof.Machine
end
